-- ==== Sys2Proof/Word.lean ====
section
/-! DEFINITION. The word types of the block, with the fixed widths of R9 and R20. -/

namespace Sys2Proof

/-- A byte is 8 bits; a key is a byte (R9). -/
abbrev Byte := BitVec 8

/-- A 16-bit value: DATA, COUNT, CRC, MSG_LEN, CAP (R9, R20). -/
abbrev Half := BitVec 16

/-- A frame length as FRM_LEN holds it: 24 bits (R20, R24). -/
abbrev Long := BitVec 24

/-- A word of the host register port, and a command word: 32 bits (R9, R65). -/
abbrev Word := BitVec 32

end Sys2Proof
end

