-- ==== Sys2Proof/Config.lean ====
section
/-! DEFINITION. What an implementation fixes: the parameter `MSG_CAP` with its derived capacities
(R7, R8), and the free draws for buffer bytes that nothing has written (R36). -/

namespace Sys2Proof

/-- The three byte buffers of the block: MSG (R33), FRM (R34) and STR (R35). -/
inductive Buffer where
  | msg
  | frm
  | str
deriving DecidableEq, Repr

/-- The reference value of the parameter `MSG_CAP` (R7). `State.reset` uses it; every meaning reads
the CAP register instead, so a statement about all states covers every legal value (log 1). -/
def Config.refMsgCap : Half := 65535#16

/-- The legal values of `MSG_CAP`: 1 to 65535 (R7). -/
abbrev Config.MsgCapLegal (cap : Nat) : Prop := 1 ≤ cap ∧ cap ≤ 65535

/-- The bytes a frame has beside its body: `FRM_CAP = MSG_CAP + 8` (R8) and the frame length
`8 + n` (R127). -/
def Config.frameOverhead : Nat := 8

/-- The capacity of a buffer for a given `MSG_CAP`: `STR_CAP = MSG_CAP`, `FRM_CAP = MSG_CAP + 8`
(R8). -/
def Config.capacity (msgCap : Nat) : Buffer → Nat
  | .msg => msgCap
  | .frm => msgCap + Config.frameOverhead
  | .str => msgCap

/-- FREE VALUE (R36, R182, I1, I2): the byte that a buffer holds at an index that nothing has
written since the reset counted by `epoch`. No value can be proved of it. DESIGN CHOICE, log 4. -/
opaque Config.freeByte (epoch : Nat) (b : Buffer) (index : Nat) : Byte

end Sys2Proof
end

