-- ==== Sys2Proof/Syntax.lean ====
section
/-! DEFINITION. The command set: one constructor for each row of spec/opcode_table.json (R71).
Operands are unsigned numbers (R68, R69, R70), as the assembler syntax of R76 gives them; WellFormed.lean
says which have an encoding. -/

namespace Sys2Proof

/-- A command with its operands, in the order of R76. -/
inductive Instr where
  /-- `MSG_CREATE len` (R86). -/
  | msgCreate (len : Nat)
  /-- `MSG_WRAP len` (R87). -/
  | msgWrap (len : Nat)
  /-- `SET_U8 off, val` (R88). -/
  | setU8 (off val : Nat)
  /-- `GET_U8 off` (R89). -/
  | getU8 (off : Nat)
  /-- `SET_U16 off`, the value from DATA (R90). -/
  | setU16 (off : Nat)
  /-- `GET_U16 off` (R91). -/
  | getU16 (off : Nat)
  /-- `SET_STR off`, the length from COUNT and the text from STR (R92). -/
  | setStr (off : Nat)
  /-- `GET_STR off`, the length from COUNT (R93). -/
  | getStr (off : Nat)
  /-- `CRC16` (R112). -/
  | crc16
  /-- `XOR_BYTES key` (R114). -/
  | xorBytes (key : Nat)
  /-- `ENCODE` (R129). -/
  | encodeFrame
  /-- `FRM_WRAP len` (R128). -/
  | frmWrap (len : Nat)
  /-- `DECODE` (R132). -/
  | decodeFrame
deriving DecidableEq, Repr

end Sys2Proof
end

