-- ==== Sys2Proof/WellFormed.lean ====
section
/-! DEFINITION. Which commands have an encoding (R76): "An assembler refuses `len` or `off` above 65535,
`val` or `key` above 255, and FRM_WRAP's `len` above 16777215. Those values have no encoding." -/

namespace Sys2Proof

/-- An offset or a length that field A can hold: 0 to 65535 (R68). -/
def fitsA (n : Nat) : Bool := decide (n ≤ 65535)

/-- A value or a key that field B can hold: 0 to 255 (R69). -/
def fitsB (n : Nat) : Bool := decide (n ≤ 255)

/-- A frame length that field L can hold: 0 to 16777215 (R70). -/
def fitsL (n : Nat) : Bool := decide (n ≤ 16777215)

/-- The operands of the command all have an encoding (R76). -/
def Instr.wellFormed : Instr → Bool
  | .msgCreate len => fitsA len
  | .msgWrap len => fitsA len
  | .setU8 off val => fitsA off && fitsB val
  | .getU8 off => fitsA off
  | .setU16 off => fitsA off
  | .getU16 off => fitsA off
  | .setStr off => fitsA off
  | .getStr off => fitsA off
  | .crc16 => true
  | .xorBytes key => fitsB key
  | .encodeFrame => true
  | .frmWrap len => fitsL len
  | .decodeFrame => true

end Sys2Proof
end

