-- ==== Sys2Proof/Decode.lean ====
section
/-! DEFINITION. Command words: the fields (R66), the formats and their must-be-0 fields (R67), the
decoder (R71, R72, R73), the opcode map as data (R71), and the encoder, written from the assembler's
table (R76). Sys2Proof/Tests/Slice0.lean decodes a word written out by hand for every command. -/

namespace Sys2Proof

/-- `OPC = w[31:24]` (R66). -/
def opcField (w : Word) : Byte := w.extractLsb' 24 8

/-- `A = w[23:8]` (R66, R68). -/
def aField (w : Word) : Half := w.extractLsb' 8 16

/-- `B = w[7:0]` (R66, R69). -/
def bField (w : Word) : Byte := w.extractLsb' 0 8

/-- `L = w[23:0]` (R66, R70). -/
def lField (w : Word) : Long := w.extractLsb' 0 24

/-- The five formats (R67). -/
inductive Format where
  | n
  | a
  | ab
  | b
  | l
deriving DecidableEq, Repr

/-- The bits of a word that a format requires to be 0 (R67). -/
def Format.mustBeZero : Format → Word
  | .n => 0x00FFFFFF#32
  | .a => 0x000000FF#32
  | .ab => 0x00000000#32
  | .b => 0x00FFFF00#32
  | .l => 0x00000000#32

/-- Why a word is illegal. Both reasons report ILLEGAL_COMMAND and change nothing else (R162). -/
inductive IllegalWord where
  /-- The opcode is in no row of R71 (R72). -/
  | unassignedOpcode (opc : Byte)
  /-- The opcode is assigned, but a must-be-0 field holds a 1 (R73). -/
  | nonzeroMustBeZero (w : Word)
deriving DecidableEq, Repr

/-- The command `i`, if the bits of `w` that format `f` requires to be 0 are 0 (R73). -/
def checkZero (f : Format) (w : Word) (i : Instr) : Except IllegalWord Instr :=
  if w &&& f.mustBeZero = 0#32 then .ok i else .error (.nonzeroMustBeZero w)

/-- The command a word stands for, or why it is illegal (R71, R72, R73). Every word is one or the
other (R74). -/
def decode (w : Word) : Except IllegalWord Instr :=
  match opcField w with
  | 0x01#8 => checkZero .a w (.msgCreate (aField w).toNat)
  | 0x02#8 => checkZero .a w (.msgWrap (aField w).toNat)
  | 0x10#8 => checkZero .ab w (.setU8 (aField w).toNat (bField w).toNat)
  | 0x11#8 => checkZero .a w (.getU8 (aField w).toNat)
  | 0x12#8 => checkZero .a w (.setU16 (aField w).toNat)
  | 0x13#8 => checkZero .a w (.getU16 (aField w).toNat)
  | 0x14#8 => checkZero .a w (.setStr (aField w).toNat)
  | 0x15#8 => checkZero .a w (.getStr (aField w).toNat)
  | 0x20#8 => checkZero .n w .crc16
  | 0x21#8 => checkZero .b w (.xorBytes (bField w).toNat)
  | 0x30#8 => checkZero .n w .encodeFrame
  | 0x31#8 => checkZero .l w (.frmWrap (lField w).toNat)
  | 0x32#8 => checkZero .n w .decodeFrame
  | opc => .error (.unassignedOpcode opc)

/-- The word of a command, from the assembler's table (R76). It is the command's word when the
command is well formed; other operands have no encoding. -/
def encode : Instr → Word
  | .msgCreate len => 0x01000000#32 ||| (BitVec.ofNat 32 len <<< 8)
  | .msgWrap len => 0x02000000#32 ||| (BitVec.ofNat 32 len <<< 8)
  | .setU8 off val => 0x10000000#32 ||| (BitVec.ofNat 32 off <<< 8) ||| BitVec.ofNat 32 val
  | .getU8 off => 0x11000000#32 ||| (BitVec.ofNat 32 off <<< 8)
  | .setU16 off => 0x12000000#32 ||| (BitVec.ofNat 32 off <<< 8)
  | .getU16 off => 0x13000000#32 ||| (BitVec.ofNat 32 off <<< 8)
  | .setStr off => 0x14000000#32 ||| (BitVec.ofNat 32 off <<< 8)
  | .getStr off => 0x15000000#32 ||| (BitVec.ofNat 32 off <<< 8)
  | .crc16 => 0x20000000#32
  | .xorBytes key => 0x21000000#32 ||| BitVec.ofNat 32 key
  | .encodeFrame => 0x30000000#32
  | .frmWrap len => 0x31000000#32 ||| BitVec.ofNat 32 len
  | .decodeFrame => 0x32000000#32

/-- A row of the opcode map: a word selects it when `(w & mask) == match` (R71). -/
structure OpcodeRow where
  matchWord : Word
  maskWord : Word
deriving DecidableEq, Repr

/-- The match and mask columns of R71's row for a command. -/
def Instr.row : Instr → OpcodeRow
  | .msgCreate _ => ⟨0x01000000#32, 0xFF0000FF#32⟩
  | .msgWrap _ => ⟨0x02000000#32, 0xFF0000FF#32⟩
  | .setU8 _ _ => ⟨0x10000000#32, 0xFF000000#32⟩
  | .getU8 _ => ⟨0x11000000#32, 0xFF0000FF#32⟩
  | .setU16 _ => ⟨0x12000000#32, 0xFF0000FF#32⟩
  | .getU16 _ => ⟨0x13000000#32, 0xFF0000FF#32⟩
  | .setStr _ => ⟨0x14000000#32, 0xFF0000FF#32⟩
  | .getStr _ => ⟨0x15000000#32, 0xFF0000FF#32⟩
  | .crc16 => ⟨0x20000000#32, 0xFFFFFFFF#32⟩
  | .xorBytes _ => ⟨0x21000000#32, 0xFFFFFF00#32⟩
  | .encodeFrame => ⟨0x30000000#32, 0xFFFFFFFF#32⟩
  | .frmWrap _ => ⟨0x31000000#32, 0xFF000000#32⟩
  | .decodeFrame => ⟨0x32000000#32, 0xFFFFFFFF#32⟩

/-- The opcode map's match and mask columns, one row for each command (R71). -/
def opcodeRows : List OpcodeRow :=
  [Instr.row (.msgCreate 0), Instr.row (.msgWrap 0), Instr.row (.setU8 0 0), Instr.row (.getU8 0),
    Instr.row (.setU16 0), Instr.row (.getU16 0), Instr.row (.setStr 0), Instr.row (.getStr 0),
    Instr.row .crc16, Instr.row (.xorBytes 0), Instr.row .encodeFrame, Instr.row (.frmWrap 0),
    Instr.row .decodeFrame]

/-- A word selects a row when `(w & mask) == match` (R71). -/
def OpcodeRow.selectedBy (r : OpcodeRow) (w : Word) : Bool := w &&& r.maskWord == r.matchWord

/-- The command the decoder reads from a table row's word of `nbits` bits; the bits above `nbits`
are 0, and every command is one 32-bit word (R65). -/
def decodeTableWord (nbits w : Nat) : Option Instr :=
  match decode (BitVec.ofNat 32 (w % 2 ^ nbits)) with
  | .ok i => some i
  | .error _ => none

end Sys2Proof
end

