-- ==== Sys2Proof/Machine/State.lean ====
section
/-! DEFINITION. The state of the block (10_state.md) as plain data, the reasons a step can stop, and
the state after reset (R181, R182). -/

namespace Sys2Proof.Machine

open Sys2Proof

/-- The ten host-visible registers (R20). -/
inductive Reg where
  | cmd
  | status
  | msgLen
  | frmLen
  | data
  | count
  | xor1
  | xor2
  | crc
  | cap
deriving DecidableEq, Repr

/-- The result codes of STATUS.CODE (R155). Codes 6 to 15 are never produced. -/
inductive Code where
  | ok
  | outOfRange
  | malformedFrame
  | truncatedFrame
  | lengthOverflow
  | illegalCommand
deriving DecidableEq, Repr

/-- The five host actions (R49). -/
inductive HostAction where
  /-- `rd REG` (R50). -/
  | rd (r : Reg)
  /-- `wr REG, v` (R51). -/
  | wr (r : Reg) (v : Word)
  /-- `bw BUF, i, b` (R52). -/
  | bw (b : Buffer) (i : Nat) (v : Byte)
  /-- `br BUF, i` (R53). -/
  | br (b : Buffer) (i : Nat)
  /-- A command issue, `cmd w`, which is `wr CMD, w` (R49). -/
  | cmd (w : Word)
deriving DecidableEq, Repr

/-- The width of a raw access at the host port. R54 names 8 bits, 32 bits and "not 32 bits wide", and
lists no others. DESIGN CHOICE: the port carries 8, 16 and 32 bits (log 16). -/
inductive Width where
  | w8
  | w16
  | w32
deriving DecidableEq, Repr

/-- A raw access at the 19-bit host port (R54): the concrete form of a host action. -/
inductive PortAccess where
  | read (addr : BitVec 19) (width : Width)
  | write (addr : BitVec 19) (width : Width) (v : Word)
deriving DecidableEq, Repr

/-- What can change the block: a host action (R17, R49), the same as a raw port access (R54), or a
pulse of the reset input (R180). -/
inductive Stimulus where
  | host (a : HostAction)
  | port (p : PortAccess)
  | resetPulse
deriving DecidableEq, Repr

/-- The bytes written to one buffer since the last reset: (index, byte) pairs with strictly rising
indices. An index that is not listed has not been written and holds a free draw (R36, log 4). -/
abbrev Memory := List Host.Cell

/-- The state. STATUS is held as its two fields; its bits 6:4 have no storage (R22, log 11). CMD has
no storage (R21). The last three fields are the model's own. -/
structure State where
  /-- STATUS.CODE, the result code of the latest command (R22). -/
  code : BitVec 4
  /-- STATUS.STICKY, set by any command whose code is not OK (R22, R157). -/
  sticky : Bool
  /-- MSG_LEN, the length of the current Message (R23). -/
  msgLen : Half
  /-- FRM_LEN, the length of the frame in FRM (R24). -/
  frmLen : Long
  /-- DATA, the data register of the field accessors (R25). -/
  data : Half
  /-- COUNT, the byte count of the string accessors (R26). -/
  count : Half
  /-- XOR1, the first key (R27). -/
  xor1 : Byte
  /-- XOR2, the second key (R28). -/
  xor2 : Byte
  /-- CRC, the checksum register (R29). -/
  crc : Half
  /-- CAP, the constant `MSG_CAP` (R30, R7). -/
  cap : Half
  /-- MSG, the message buffer (R33). -/
  msg : Memory
  /-- FRM, the frame buffer (R34). -/
  frm : Memory
  /-- STR, the string staging buffer (R35). -/
  str : Memory
  /-- MODEL's own: the counter at which unwritten bytes are drawn (R36, R182, log 5). -/
  epoch : Nat
  /-- MODEL's own: the stimuli still to come, the next one first (R19, R32, log 2). -/
  pending : List Stimulus
  /-- MODEL's own: the values host reads have returned, the latest first (R50, R53, log 3). -/
  returned : List Word
deriving DecidableEq, Repr

/-- The reasons a step can fault. There is none: the block has no trap (R165), every command finishes
with a status code, and no action can leave the block stuck (R18). Log 8. -/
inductive Fault where
deriving DecidableEq, Repr

/-- The reasons a step can be refused. -/
inductive Refusal where
  /-- An instruction that has no meaning yet. Raised by `exec` only; no arm raises it now. Safe: the
  model stops where the block would go on. -/
  | notModelled (mnemonic : String)
  /-- A raw port access wider than 8 bits that touches a buffer window, whose effect R54 does not
  state. Raised by `portAccess` only, never by a command. Safe: the model stops (log 7). -/
  | widePortAccessToBuffer
deriving DecidableEq, Repr

/-- What a step answers. -/
abbrev Result := Host.Outcome State Fault Refusal

/-- The state after reset of a block whose `MSG_CAP` is `cap`: every register at its value of R181,
no buffer byte written (R182). -/
def State.resetWith (cap : Half) : State where
  code := 0#4
  sticky := false
  msgLen := 0#16
  frmLen := 0#24
  data := 0#16
  count := 0#16
  xor1 := 0#8
  xor2 := 0#8
  crc := 0#16
  cap := cap
  msg := []
  frm := []
  str := []
  epoch := 0
  pending := []
  returned := []

/-- The state after reset in the reference configuration, `MSG_CAP = 65535` (R7, R181, log 1). No
program is placed: the host's actions come from outside the block (R19, log 2). -/
def State.reset : State := State.resetWith Config.refMsgCap

end Sys2Proof.Machine
end

