-- ==== Sys2Proof/Machine/Flags.lean ====
section
/-! DEFINITION. The STATUS register, the block's only flags (R37): the codes (R155), how a command
sets CODE and STICKY (R156, R157), how the host reads and clears them (R22, R50, R51). -/

namespace Sys2Proof.Machine

open Sys2Proof

/-- The number of a result code (R155). -/
def Code.bits : Code → BitVec 4
  | .ok => 0#4
  | .outOfRange => 1#4
  | .malformedFrame => 2#4
  | .truncatedFrame => 3#4
  | .lengthOverflow => 4#4
  | .illegalCommand => 5#4

/-- STICKY after a command that ends with code `c`: set unless `c` is OK, never cleared (R156). -/
def stickyAfter (sticky : Bool) (c : Code) : Bool :=
  match c with
  | .ok => sticky
  | .outOfRange | .malformedFrame | .truncatedFrame | .lengthOverflow | .illegalCommand => true

/-- STATUS as a byte: STICKY in bit 7, bits 6:4 read as 0, CODE in bits 3:0 (R22, R50). -/
def statusByte (sticky : Bool) (code : BitVec 4) : Byte := BitVec.ofBool sticky ++ 0#3 ++ code

/-- STICKY after a host write of `v` to STATUS: cleared if bit 7 of `v` is 1, else kept (R22, R51). -/
def stickyAfterWrite (sticky : Bool) (v : Word) : Bool := sticky && !v.getLsbD 7

end Sys2Proof.Machine
end

