-- ==== Sys2Proof/Machine/Operands.lean ====
section
/-! DEFINITION. Operand forms: byte order (R10, R45), operands of the command word as register values
(R13), and the tests on operands (R158, R159, R160, R161). All sums are of unbounded numbers (R12). -/

namespace Sys2Proof.Machine

open Sys2Proof

/-- `highByte(v)` is `v[15:8]` (R10). -/
def highByte (v : Half) : Byte := v.extractLsb' 8 8

/-- `lowByte(v)` is `v[7:0]` (R10). -/
def lowByte (v : Half) : Byte := v.extractLsb' 0 8

/-- `{a, b}`: the 16-bit value with `a` in the more significant byte (R10). -/
def concatBytes (a b : Byte) : Half := a ++ b

/-- The two bytes of a 16-bit value as a buffer holds them: the most significant at the lower index
(R45, R46). -/
def bigEndian (v : Half) : List Byte := [highByte v, lowByte v]

/-- Field B of a command as the byte it stands for (R69, R13). -/
def byteOperand (n : Nat) : Byte := BitVec.ofNat 8 n

/-- Field A of a command as a register value (R68, R13). -/
def halfOperand (n : Nat) : Half := BitVec.ofNat 16 n

/-- Field L of a command, or a computed frame length, as FRM_LEN holds it (R70, R13, R24). -/
def longOperand (n : Nat) : Long := BitVec.ofNat 24 n

/-- The capacity of a buffer in bytes, from the CAP register (R8, R30). -/
def State.capacity (s : State) (b : Buffer) : Nat := Config.capacity s.cap.toNat b

/-- The length operand of MSG_CREATE, MSG_WRAP (`A > MSG_CAP`) or FRM_WRAP (`L > FRM_CAP`) is above
the buffer's capacity (R161). -/
def State.overflows (s : State) (b : Buffer) (len : Nat) : Bool := decide (s.capacity b < len)

/-- The bounds test of SET_U8 and GET_U8: `A >= MSG_LEN` (R158). -/
def State.outOfRange8 (s : State) (off : Nat) : Bool := decide (s.msgLen.toNat ≤ off)

/-- The bounds test of SET_U16 and GET_U16: `A + 1 >= MSG_LEN` (R158). -/
def State.outOfRange16 (s : State) (off : Nat) : Bool := decide (s.msgLen.toNat ≤ off + 1)

/-- The bounds test of SET_STR and GET_STR: `A + COUNT >= MSG_LEN` (R158), one byte stricter than the
bytes need, kept exactly (R92, R96). -/
def State.outOfRangeStr (s : State) (off : Nat) : Bool :=
  decide (s.msgLen.toNat ≤ off + s.count.toNat)

/-- DECODE's first test: `FRM_LEN < 8` (R159). -/
def State.frameShort (s : State) : Bool := decide (s.frmLen.toNat < Config.frameOverhead)

/-- DECODE's second test: the body length `n` is above `FRM_LEN - 8` (R160). It is made only where
`FRM_LEN` is at least 8. -/
def State.bodyTooLong (s : State) (n : Half) : Bool :=
  decide (s.frmLen.toNat - Config.frameOverhead < n.toNat)

end Sys2Proof.Machine
end

