-- ==== Sys2Proof/Machine/Ops.lean ====
section
/-! DEFINITION. The named operations over buffers and registers, and the one way a command ends:
`State.status` (R156). The block takes no exception and returns from none (R165, R166): a failed
command ends through the same `State.status`. -/

namespace Sys2Proof.Machine

open Sys2Proof

/-- The canonical form of a buffer's written bytes: indices strictly rising. No entry can equal what
an unlisted index reads as, for that is no stored value at all but a free draw (log 4). -/
abbrev Memory.wf (m : Memory) : Prop := m.Pairwise (fun c d => c.1 < d.1)

/-- Every listed index lies below `cap`. -/
abbrev Memory.below (m : Memory) (cap : Nat) : Prop := ∀ c ∈ m, c.1 < cap

/-- The byte written at index `i`, if one has been. -/
def Memory.get? : Memory → Nat → Option Byte
  | [], _ => none
  | (j, v) :: m, i => if j = i then some v else Memory.get? m i

/-- The bytes `vs` at indices `i`, `i + 1`, … -/
def Memory.cells (i : Nat) : List Byte → Memory
  | [] => []
  | v :: vs => (i, v) :: Memory.cells (i + 1) vs

/-- The buffer with `vs` written at indices `i`, `i + 1`, … and every other byte kept: `MemWrite` of
R13, in canonical form. -/
def Memory.put (m : Memory) (i : Nat) (vs : List Byte) : Memory :=
  m.filter (fun c => decide (c.1 < i)) ++ Memory.cells i vs ++
    m.filter (fun c => decide (i + vs.length ≤ c.1))

/-- The written bytes of a buffer. -/
def State.buffer (s : State) : Buffer → Memory
  | .msg => s.msg
  | .frm => s.frm
  | .str => s.str

/-- The state with a buffer's written bytes replaced. -/
def State.withBuffer (s : State) (b : Buffer) (m : Memory) : State :=
  match b with
  | .msg => { s with msg := m }
  | .frm => { s with frm := m }
  | .str => { s with str := m }

/-- What a buffer byte that nothing has written reads as: a free draw (R36, log 4). -/
def State.unwritten (s : State) (b : Buffer) (i : Nat) : Byte := Config.freeByte s.epoch b i

/-- `BUF[i]` (R13): the byte last written there, or the free draw. -/
def State.byte (s : State) (b : Buffer) (i : Nat) : Byte :=
  (Memory.get? (s.buffer b) i).getD (s.unwritten b i)

/-- `BUF[i..i+n)` (R13). -/
def State.bytes (s : State) (b : Buffer) (i n : Nat) : List Byte :=
  (List.range n).map (fun k => s.byte b (i + k))

/-- `MemWrite(BUF, i, n, vs)` (R13): `vs` at indices `i`, `i + 1`, … of the buffer. -/
def State.put (s : State) (b : Buffer) (i : Nat) (vs : List Byte) : State :=
  s.withBuffer b (Memory.put (s.buffer b) i vs)

/-- The 16-bit value at index `i`: `{BUF[i], BUF[i+1]}` (R46). -/
def State.half (s : State) (b : Buffer) (i : Nat) : Half :=
  concatBytes (s.byte b i) (s.byte b (i + 1))

/-- The current Message, `MSG[0..MSG_LEN)` (R33). -/
def State.message (s : State) : List Byte := s.bytes .msg 0 s.msgLen.toNat

/-- `MSG_LEN <- n` (R23). -/
def State.setMsgLen (s : State) (n : Half) : State := { s with msgLen := n }

/-- `FRM_LEN <- n` (R24). -/
def State.setFrmLen (s : State) (n : Long) : State := { s with frmLen := n }

/-- `DATA <- v` (R25). -/
def State.setData (s : State) (v : Half) : State := { s with data := v }

/-- `COUNT <- v` (R26). -/
def State.setCount (s : State) (v : Half) : State := { s with count := v }

/-- `XOR1 <- v` (R27). -/
def State.setXor1 (s : State) (v : Byte) : State := { s with xor1 := v }

/-- `XOR2 <- v` (R28). -/
def State.setXor2 (s : State) (v : Byte) : State := { s with xor2 := v }

/-- `CRC <- v` (R29). -/
def State.setCrc (s : State) (v : Half) : State := { s with crc := v }

/-- `status(C)` (R156): every command ends here, with CODE overwritten and STICKY set unless the code
is OK. -/
def State.status (s : State) (c : Code) : State :=
  { s with code := c.bits, sticky := stickyAfter s.sticky c }

/-- `fail(C)` (R13): the command ends with code `C` and no other change. -/
def fail (c : Code) (s : State) : Result := .next (s.status c)

/-- `status(OK)`: the command ends with its writes done (R156). -/
def done (s : State) : Result := .next (s.status .ok)

/-- The reset input (R180): every register at its reset value, CAP kept (R181); every buffer byte
unspecified, so drawn afresh (R182, I2). The host's actions go on (log 6). -/
def State.pulseReset (s : State) : State :=
  { State.resetWith s.cap with
    epoch := s.epoch + 1, pending := s.pending, returned := s.returned }

/-- The value a host read returned, recorded on the host's side (R50, R53, log 3). -/
def State.deliver (s : State) (v : Word) : State := { s with returned := v :: s.returned }

end Sys2Proof.Machine
end

