-- ==== Sys2Proof/Machine/Cipher.lean ====
section
/-! DEFINITION. The checksum and the cipher (41_checksum_cipher.md): the two functions and the two
commands that expose them. -/

namespace Sys2Proof.Machine

open Sys2Proof

/-- One round of the CRC: shift right by one bit, and XOR with 0xA001 if the bit shifted out was 1
(R110). -/
def crcRound (acc : Half) : Half :=
  if acc.getLsbD 0 then (acc >>> 1) ^^^ 0xA001#16 else acc >>> 1

/-- `n` rounds of the CRC (R110). -/
def crcRounds : Nat → Half → Half
  | 0, acc => acc
  | n + 1, acc => crcRounds n (crcRound acc)

/-- One byte of the CRC: XOR it into the low byte of the accumulator, then eight rounds (R110). -/
def crcByte (acc : Half) (b : Byte) : Half := crcRounds 8 (acc ^^^ b.setWidth 16)

/-- `crc16(s)` (R110): from 0xFFFF, byte after byte, no final XOR. -/
def crc16 (s : List Byte) : Half := s.foldl crcByte 0xFFFF#16

/-- `xorBytes(s, k)` (R113): every byte XORed with the one key. -/
def xorBytes (s : List Byte) (k : Byte) : List Byte := s.map (fun b => b ^^^ k)

/-- CRC16 (R112): CRC <- crc16 of the current Message. -/
def execCrc16 (s : State) : Result := done (s.setCrc (crc16 s.message))

/-- XOR_BYTES (R114): the current Message, in place. -/
def execXorBytes (key : Nat) (s : State) : Result :=
  done (s.put .msg 0 (xorBytes s.message (byteOperand key)))

end Sys2Proof.Machine
end

