-- ==== Sys2Proof/Machine/Frame.lean ====
section
/-! DEFINITION. The frame formatter and parser (42_frame.md): FRM_WRAP, ENCODE and DECODE. -/

namespace Sys2Proof.Machine

open Sys2Proof

/-- The header of a frame: the first key and the body length (R125; ENCODE's step 2, R129). -/
def frameHeader (k1 : Byte) (n : Half) : List Byte := k1 :: bigEndian n

/-- What follows the body: the checksum trailer, the key trailer `{k2, k2 ^ lowByte(n)}` (R131) and
the pad byte 0x00 (R126) (R125; ENCODE's steps 5 and 6, R129). -/
def frameTrailer (c : Half) (k2 : Byte) (n : Half) : List Byte :=
  bigEndian c ++ [k2, k2 ^^^ lowByte n, 0x00#8]

/-- The third key, `k1 ^ highByte(crc)` (R16, R129, R132). -/
def thirdKey (k1 : Byte) (c : Half) : Byte := k1 ^^^ highByte c

/-- FRM_WRAP (R128). -/
def execFrmWrap (len : Nat) (s : State) : Result :=
  if s.overflows .frm len then fail .lengthOverflow s
  else done (s.setFrmLen (longOperand len))

/-- ENCODE (R129). The order of the passes is part of its definition (R130). MSG is left holding the
twice-ciphered body (R137). -/
def execEncodeFrame (s : State) : Result :=
  let n := s.msgLen
  let first := xorBytes s.message s.xor2
  let c := crc16 first
  let second := xorBytes first (thirdKey s.xor1 c)
  let frame := frameHeader s.xor1 n ++ second ++ frameTrailer c s.xor2 n
  done ((((s.put .msg 0 second).put .frm 0 frame).setFrmLen
    (longOperand (Config.frameOverhead + n.toNat))).setCrc c)

/-- `fail_decode(C)` (R133): DECODE's failure exit, with its sentinel outputs. -/
def failDecode (c : Code) (s : State) : Result :=
  .next (((((s.setMsgLen 0#16).setXor1 0#8).setXor2 0#8).setCrc 0#16).status c)

/-- The body length field of the frame in FRM, `{FRM[1], FRM[2]}` (R125, R132). -/
def State.frameBodyLen (s : State) : Half := s.half .frm 1

/-- The checksum trailer of the frame in FRM, `{FRM[3+n], FRM[4+n]}` (R125, R132). -/
def State.frameCrc (s : State) : Half := s.half .frm (3 + s.frameBodyLen.toNat)

/-- The second key as DECODE recovers it: the key trailer's low byte, unmasked (R132, R135). -/
def State.frameKey2 (s : State) : Byte :=
  lowByte (s.half .frm (5 + s.frameBodyLen.toNat)) ^^^ lowByte s.frameBodyLen

/-- The body as DECODE recovers it: the third key's pass undone, then the second key's (R132). -/
def State.frameBody (s : State) : List Byte :=
  xorBytes
    (xorBytes (s.bytes .frm 3 s.frameBodyLen.toNat) (thirdKey (s.byte .frm 0) s.frameCrc))
    s.frameKey2

/-- DECODE (R132, R133), its two tests in the order of R164. The body is deciphered in place in FRM
and returned as the new Message (R137). -/
def execDecodeFrame (s : State) : Result :=
  if s.frameShort then failDecode .malformedFrame s
  else if s.bodyTooLong s.frameBodyLen then failDecode .truncatedFrame s
  else
    done ((((((s.put .frm 3 s.frameBody).put .msg 0 s.frameBody).setMsgLen s.frameBodyLen).setXor1
      (s.byte .frm 0)).setXor2 s.frameKey2).setCrc s.frameCrc)

end Sys2Proof.Machine
end

