-- ==== Sys2Proof/Machine/MessageBuffer.lean ====
section
/-! DEFINITION. The Message buffer commands (40_buffer.md). Each makes its whole test before it writes
anything (R85). -/

namespace Sys2Proof.Machine

open Sys2Proof

/-- MSG_CREATE (R86). -/
def execMsgCreate (len : Nat) (s : State) : Result :=
  if s.overflows .msg len then fail .lengthOverflow s
  else done ((s.put .msg 0 (List.replicate len 0#8)).setMsgLen (halfOperand len))

/-- MSG_WRAP (R87). -/
def execMsgWrap (len : Nat) (s : State) : Result :=
  if s.overflows .msg len then fail .lengthOverflow s
  else done (s.setMsgLen (halfOperand len))

/-- SET_U8 (R88). -/
def execSetU8 (off val : Nat) (s : State) : Result :=
  if s.outOfRange8 off then fail .outOfRange s
  else done (s.put .msg off [byteOperand val])

/-- GET_U8 (R89): DATA <- zext_16(MSG[A]). -/
def execGetU8 (off : Nat) (s : State) : Result :=
  if s.outOfRange8 off then fail .outOfRange s
  else done (s.setData ((s.byte .msg off).setWidth 16))

/-- SET_U16 (R90): the value is DATA. -/
def execSetU16 (off : Nat) (s : State) : Result :=
  if s.outOfRange16 off then fail .outOfRange s
  else done (s.put .msg off (bigEndian s.data))

/-- GET_U16 (R91). -/
def execGetU16 (off : Nat) (s : State) : Result :=
  if s.outOfRange16 off then fail .outOfRange s
  else done (s.setData (s.half .msg off))

/-- SET_STR (R92): MSG[A..A+COUNT) <- STR[0..COUNT). -/
def execSetStr (off : Nat) (s : State) : Result :=
  if s.outOfRangeStr off then fail .outOfRange s
  else done (s.put .msg off (s.bytes .str 0 s.count.toNat))

/-- GET_STR (R93): STR[0..COUNT) <- MSG[A..A+COUNT). -/
def execGetStr (off : Nat) (s : State) : Result :=
  if s.outOfRangeStr off then fail .outOfRange s
  else done (s.put .str 0 (s.bytes .msg off s.count.toNat))

end Sys2Proof.Machine
end

