-- ==== Sys2Proof/Machine/Dispatch.lean ====
section
/-! DEFINITION. One arm for each command (R71). -/

namespace Sys2Proof.Machine

open Sys2Proof

/-- What a command does to the state. -/
def exec (i : Instr) (s : State) : Host.Outcome State Fault Refusal :=
  match i with
  | .msgCreate len => Sys2Proof.Machine.execMsgCreate len s
  | .msgWrap len => Sys2Proof.Machine.execMsgWrap len s
  | .setU8 off val => Sys2Proof.Machine.execSetU8 off val s
  | .getU8 off => Sys2Proof.Machine.execGetU8 off s
  | .setU16 off => Sys2Proof.Machine.execSetU16 off s
  | .getU16 off => Sys2Proof.Machine.execGetU16 off s
  | .setStr off => Sys2Proof.Machine.execSetStr off s
  | .getStr off => Sys2Proof.Machine.execGetStr off s
  | .crc16 => Sys2Proof.Machine.execCrc16 s
  | .xorBytes key => Sys2Proof.Machine.execXorBytes key s
  | .encodeFrame => Sys2Proof.Machine.execEncodeFrame s
  | .frmWrap len => Sys2Proof.Machine.execFrmWrap len s
  | .decodeFrame => Sys2Proof.Machine.execDecodeFrame s

end Sys2Proof.Machine
end

