-- ==== Sys2Proof/Machine/HostPort.lean ====
section
/-! DEFINITION. What the host can do to the block: the five actions (R49 to R53), the concrete port
(R54), and the reset input (R180); and how the next of them is taken from the state (R19, R32). -/

namespace Sys2Proof.Machine

open Sys2Proof

/-- A CMD write of the word `w` (R21): the command it stands for is executed, or, if it is illegal,
ILLEGAL_COMMAND is reported and nothing else changes (R72, R73, R162). -/
def issue (w : Word) (s : State) : Result :=
  match decode w with
  | .ok i => exec i s
  | .error _ => fail .illegalCommand s

/-- What `rd REG` returns: the register zero-extended to 32 bits, and 0 for CMD (R50). -/
def State.readReg (s : State) : Reg → Word
  | .cmd => 0#32
  | .status => (statusByte s.sticky s.code).setWidth 32
  | .msgLen => s.msgLen.setWidth 32
  | .frmLen => s.frmLen.setWidth 32
  | .data => s.data.setWidth 32
  | .count => s.count.setWidth 32
  | .xor1 => s.xor1.setWidth 32
  | .xor2 => s.xor2.setWidth 32
  | .crc => s.crc.setWidth 32
  | .cap => s.cap.setWidth 32

/-- `wr REG, v` (R51). Writes to MSG_LEN, FRM_LEN, CRC and CAP have no effect. -/
def writeReg (r : Reg) (v : Word) (s : State) : Result :=
  match r with
  | .cmd => issue v s
  | .status => .next { s with sticky := stickyAfterWrite s.sticky v }
  | .data => .next (s.setData (v.setWidth 16))
  | .count => .next (s.setCount (v.setWidth 16))
  | .xor1 => .next (s.setXor1 (v.setWidth 8))
  | .xor2 => .next (s.setXor2 (v.setWidth 8))
  | .msgLen => .next s
  | .frmLen => .next s
  | .crc => .next s
  | .cap => .next s

/-- What `br BUF, i` returns: the byte, or 0x00 at or above the capacity (R53). -/
def State.readBuffer (s : State) (b : Buffer) (i : Nat) : Byte :=
  if i < s.capacity b then s.byte b i else 0x00#8

/-- `bw BUF, i, v`: no effect at or above the capacity (R52). -/
def State.writeBuffer (s : State) (b : Buffer) (i : Nat) (v : Byte) : State :=
  if i < s.capacity b then s.put b i [v] else s

/-- A host action (R49). A command issue is a write to CMD. -/
def hostAction (a : HostAction) (s : State) : Result :=
  match a with
  | .rd r => .next (s.deliver (s.readReg r))
  | .wr r v => writeReg r v s
  | .bw b i v => .next (s.writeBuffer b i v)
  | .br b i => .next (s.deliver ((s.readBuffer b i).setWidth 32))
  | .cmd w => writeReg .cmd w s

/-- The offset of a register at the port (R20). -/
def Reg.offset : Reg → Nat
  | .cmd => 0x00
  | .status => 0x04
  | .msgLen => 0x08
  | .frmLen => 0x0C
  | .data => 0x10
  | .count => 0x14
  | .xor1 => 0x18
  | .xor2 => 0x1C
  | .crc => 0x20
  | .cap => 0x24

/-- The registers in the order of their offsets (R20). -/
def Reg.all : List Reg :=
  [.cmd, .status, .msgLen, .frmLen, .data, .count, .xor1, .xor2, .crc, .cap]

/-- The bytes an access covers. -/
def Width.byteCount : Width → Nat
  | .w8 => 1
  | .w16 => 2
  | .w32 => 4

/-- The buffer whose window holds a port address, with the index in it (R54). -/
def windowAt (addr : Nat) : Option (Buffer × Nat) :=
  if 0x10000 ≤ addr ∧ addr < 0x20000 then some (.msg, addr - 0x10000)
  else if 0x20000 ≤ addr ∧ addr < 0x30000 then some (.str, addr - 0x20000)
  else if 0x40000 ≤ addr ∧ addr < 0x60000 then some (.frm, addr - 0x40000)
  else none

/-- The register that an access reaches: the one at its address, for an aligned 32-bit access (R54).
The offsets of R20 are the multiples of 4 below 0x28. -/
def registerAt (addr : Nat) (width : Width) : Option Reg :=
  match width with
  | .w32 => Reg.all.find? (fun r => r.offset == addr)
  | .w8 | .w16 => none

/-- Where a port access goes (R54). -/
inductive PortTarget where
  /-- An aligned 32-bit access to a register. -/
  | register (r : Reg)
  /-- An 8-bit access in a buffer's window. -/
  | byteOf (b : Buffer) (i : Nat)
  /-- A reserved address, or a misaligned or narrow register access: reads 0, writes ignored. -/
  | nothing
  /-- An access wider than 8 bits that touches a buffer window: not stated (log 7). -/
  | wideInWindow
deriving DecidableEq, Repr

/-- The address map of the host port (R54). The windows are longer than an access, so an access wider
than 8 bits touches one exactly when its first or last byte lies in it. -/
def portTarget (addr : Nat) (width : Width) : PortTarget :=
  match registerAt addr width with
  | some r => .register r
  | none =>
    match windowAt addr, windowAt (addr + width.byteCount - 1), width with
    | some (b, i), _, .w8 => .byteOf b i
    | none, none, _ => .nothing
    | none, some _, .w8 => .nothing
    | _, _, .w16 => .wideInWindow
    | _, _, .w32 => .wideInWindow

/-- A raw access at the host port (R54), as the host action it stands for. -/
def portAccess (p : PortAccess) (s : State) : Result :=
  match p with
  | .read addr width =>
    match portTarget addr.toNat width with
    | .register r => hostAction (.rd r) s
    | .byteOf b i => hostAction (.br b i) s
    | .nothing => .next (s.deliver 0#32)
    | .wideInWindow => .refused .widePortAccessToBuffer
  | .write addr width v =>
    match portTarget addr.toNat width with
    | .register r => hostAction (.wr r v) s
    | .byteOf b i => hostAction (.bw b i (v.setWidth 8)) s
    | .nothing => .next s
    | .wideInWindow => .refused .widePortAccessToBuffer

/-- What a stimulus does to the block. -/
def stimulate (a : Stimulus) (s : State) : Result :=
  match a with
  | .host h => hostAction h s
  | .port p => portAccess p s
  | .resetPulse => .next s.pulseReset

/-- The next stimulus, and the state in which it acts: the host's position moves on by one (R32). -/
def State.takeStimulus (s : State) : Option (Stimulus × State) :=
  match s.pending with
  | [] => none
  | a :: rest => some (a, { s with pending := rest })

/-- One step: the next stimulus acts, atomically (R59). With none the block holds its state (R17,
R174, log 2). -/
def advance (s : State) : Result :=
  match s.takeStimulus with
  | none => .next s
  | some (a, s') => stimulate a s'

/-- The state with a command issue of the word `w` as the next stimulus, before those pending. -/
def State.withNextWord (s : State) (w : Word) : State :=
  { s with pending := .host (.cmd w) :: s.pending }

end Sys2Proof.Machine
end

