-- ==== Sys2Proof/Machine/Step.lean ====
section
/-! DEFINITION. One step of the machine, and where it takes its next command from. -/

namespace Sys2Proof.Machine

open Sys2Proof

/-- One step: one stimulus of the host, taken atomically in order (R17, R59). -/
def step (s : State) : Host.Outcome State Fault Refusal := advance s

/-- The state in which the very next step runs the command word whose low `nbits` bits are those of
`w`: the host issues it next (R21, R49). Every command is one 32-bit word (R65). Log 2. -/
def State.withFetchWord (s : State) (nbits w : Nat) : State :=
  s.withNextWord (BitVec.ofNat 32 (w % 2 ^ nbits))

end Sys2Proof.Machine
end

