-- ==== Sys2Proof/Machine/Assembler.lean ====
section
/-! DEFINITION. The assembler of 30_encoding.md: command syntax (R76), host-action lines and
pseudo-actions with their expansions (R77). An assembled program is a list of host actions (R19). -/

namespace Sys2Proof.Machine

open Sys2Proof

/-- The word of a command line; `none` where the assembler refuses an operand (R76). -/
def assemble (i : Instr) : Option Word := if i.wellFormed then some (encode i) else none

/-- A line of a program (R76, R77). -/
inductive Line where
  /-- A command, by its mnemonic. -/
  | instr (i : Instr)
  /-- `.cmd w`, a raw word. -/
  | rawWord (w : Word)
  | wr (r : Reg) (v : Word)
  | rd (r : Reg)
  | bw (b : Buffer) (i : Nat) (v : Byte)
  | br (b : Buffer) (i : Nat)
  | bwn (b : Buffer) (i : Nat) (vs : List Byte)
  | bws (b : Buffer) (i : Nat) (text : String)
  /-- `msg.load`. -/
  | msgLoad (vs : List Byte)
  /-- `frm.load`. -/
  | frmLoad (vs : List Byte)
  /-- `str.put off, text`. -/
  | strPut (off : Nat) (text : String)
  | setKeys (k1 k2 : Byte)
  | clrSticky
deriving DecidableEq, Repr

/-- The ASCII bytes of a text; `none` if it holds a character that is not ASCII (R15, R77, log 13). -/
def asciiBytes (text : String) : Option (List Byte) :=
  text.toList.mapM (fun c => if c.toNat < 128 then some (BitVec.ofNat 8 c.toNat) else none)

/-- `bw BUF, i, b0`; `bw BUF, i+1, b1`; … (R77). -/
def bufferWrites (b : Buffer) (i : Nat) : List Byte → List HostAction
  | [] => []
  | v :: vs => .bw b i v :: bufferWrites b (i + 1) vs

/-- A command line as a host action (R77: "a command line from rule R76 is `wr CMD, word`"). -/
def commandLine (i : Instr) : Option (List HostAction) :=
  (assemble i).map (fun w => [.wr .cmd w])

/-- The host actions a line stands for; `none` where the assembler refuses it (R76, R77). -/
def Line.expand : Line → Option (List HostAction)
  | .instr i => commandLine i
  | .rawWord w => some [.wr .cmd w]
  | .wr r v => some [.wr r v]
  | .rd r => some [.rd r]
  | .bw b i v => some [.bw b i v]
  | .br b i => some [.br b i]
  | .bwn b i vs => some (bufferWrites b i vs)
  | .bws b i text => (asciiBytes text).map (bufferWrites b i)
  | .msgLoad vs => (commandLine (.msgWrap vs.length)).map (bufferWrites .msg 0 vs ++ ·)
  | .frmLoad vs => (commandLine (.frmWrap vs.length)).map (bufferWrites .frm 0 vs ++ ·)
  | .strPut off text =>
    (asciiBytes text).bind (fun vs =>
      (commandLine (.setStr off)).map (fun c =>
        bufferWrites .str 0 vs ++ [.wr .count (BitVec.ofNat 32 vs.length)] ++ c))
  | .setKeys k1 k2 => some [.wr .xor1 (k1.setWidth 32), .wr .xor2 (k2.setWidth 32)]
  | .clrSticky => some [.wr .status 0x80#32]

/-- A program's host actions, line after line (R19); `none` if the assembler refuses a line. -/
def program : List Line → Option (List HostAction)
  | [] => some []
  | l :: ls => (l.expand).bind (fun a => (program ls).map (fun as => a ++ as))

/-- The state with a program's host actions pending after those already there (R19, R32). -/
def State.load (s : State) (as : List HostAction) : State :=
  { s with pending := s.pending ++ as.map Stimulus.host }

end Sys2Proof.Machine
end

