-- ==== Sys2Proof/Safety.lean ====
section
/-! DEFINITION. The terms the statements use: the invariant of the block, what a recorded failure is,
what a command leaves as it was, and when two states cannot be told apart by a command. -/

namespace Sys2Proof.Machine

open Sys2Proof

/-- The invariant of the block: `MSG_CAP` is legal (R7), the lengths are within their capacities
(R23, R24), CODE is one of the six codes (R22, I12), and each buffer's written bytes are in canonical
form and lie inside the buffer (R33, R34, R35). -/
structure State.Inv (s : State) : Prop where
  capLegal : Config.MsgCapLegal s.cap.toNat
  msgLenLegal : s.msgLen.toNat ≤ s.capacity .msg
  frmLenLegal : s.frmLen.toNat ≤ s.capacity .frm
  codeLegal : s.code.toNat ≤ 5
  canonical : ∀ b, Memory.wf (s.buffer b)
  inside : ∀ b, Memory.below (s.buffer b) (s.capacity b)

/-- No command since STICKY was last cleared has failed (R157): what a safe run ends with. -/
abbrev State.NoFailureRecorded (s : State) : Prop := s.sticky = false

/-- From `s` to `t` a command ended with OK and STICKY kept, changed no register as the host reads
it but STATUS and those in `written`, and left the host's side alone. -/
structure EndedOk (written : List Reg) (s t : State) : Prop where
  code : t.code = 0#4
  sticky : t.sticky = s.sticky
  registers : ∀ r, r ∉ written → r ≠ .status → t.readReg r = s.readReg r
  epoch : t.epoch = s.epoch
  pending : t.pending = s.pending
  returned : t.returned = s.returned

/-- From `s` to `t` every byte of every buffer reads as before, but for the `n` bytes of buffer `b`
from index `i` on. -/
def BytesKeptOutside (b : Buffer) (i n : Nat) (s t : State) : Prop :=
  ∀ x j, ¬ (x = b ∧ i ≤ j ∧ j < i + n) → t.byte x j = s.byte x j

/-- From `s` to `t` every byte of every buffer reads as before. -/
def BytesKept (s t : State) : Prop := ∀ x j, t.byte x j = s.byte x j

/-- The state `s` after a command that failed with the code number `code` and changed nothing but
STATUS (R13, R156). -/
def State.failedWith (s : State) (code : BitVec 4) : State :=
  { s with code := code, sticky := true }

/-- The two states hold the same registers, the same current Message, the same current frame and the
same bytes of STR below COUNT. Other buffer bytes may differ, and so may the host's sides. -/
structure AgreeOnLive (s t : State) : Prop where
  registers : ∀ r, s.readReg r = t.readReg r
  message : ∀ i < s.msgLen.toNat, s.byte .msg i = t.byte .msg i
  frame : ∀ i < s.frmLen.toNat, s.byte .frm i = t.byte .frm i
  text : ∀ i < s.count.toNat, s.byte .str i = t.byte .str i

/-- The commands that make bytes already in a buffer the Message or the frame (R87, R128). -/
def adopts : Instr → Bool
  | .msgWrap _ => true
  | .frmWrap _ => true
  | .msgCreate _ | .setU8 _ _ | .getU8 _ | .setU16 _ | .getU16 _ | .setStr _ | .getStr _ => false
  | .crc16 | .xorBytes _ | .encodeFrame | .decodeFrame => false

/-- The registers each command may write beside STATUS (R40). -/
def writesReg : Instr → List Reg
  | .msgCreate _ => [.msgLen]
  | .msgWrap _ => [.msgLen]
  | .setU8 _ _ => []
  | .getU8 _ => [.data]
  | .setU16 _ => []
  | .getU16 _ => [.data]
  | .setStr _ => []
  | .getStr _ => []
  | .crc16 => [.crc]
  | .xorBytes _ => []
  | .encodeFrame => [.frmLen, .crc]
  | .frmWrap _ => [.frmLen]
  | .decodeFrame => [.msgLen, .xor1, .xor2, .crc]

/-- The buffer bytes each command may write (R40): whether byte `j` of buffer `b` is one of them, for
the command issued in state `s`. -/
def writesByte (i : Instr) (s : State) (b : Buffer) (j : Nat) : Prop :=
  match i with
  | .msgCreate len => b = .msg ∧ j < len
  | .msgWrap _ => False
  | .setU8 off _ => b = .msg ∧ j = off
  | .getU8 _ => False
  | .setU16 off => b = .msg ∧ (j = off ∨ j = off + 1)
  | .getU16 _ => False
  | .setStr off => b = .msg ∧ off ≤ j ∧ j < off + s.count.toNat
  | .getStr _ => b = .str ∧ j < s.count.toNat
  | .crc16 => False
  | .xorBytes _ => b = .msg ∧ j < s.msgLen.toNat
  | .encodeFrame =>
    (b = .msg ∧ j < s.msgLen.toNat) ∨ (b = .frm ∧ j < 8 + s.msgLen.toNat)
  | .frmWrap _ => False
  | .decodeFrame =>
    (b = .frm ∧ 3 ≤ j ∧ j < 3 + s.frameBodyLen.toNat) ∨ (b = .msg ∧ j < s.frameBodyLen.toNat)

/-- The table a table-driven CRC looks up: eight rounds of each byte value (R111). -/
def crcTable : List Half := (List.range 256).map (fun k => crcRounds 8 (BitVec.ofNat 16 k))

/-- A table-driven CRC-16, one look-up a byte (R111: an implementation may compute the CRC by any
method that gives the result of R110). -/
def crc16TableDriven (s : List Byte) : Half :=
  s.foldl (fun acc b => (acc >>> 8) ^^^ crcTable.getD (lowByte acc ^^^ b).toNat 0#16) 0xFFFF#16

end Sys2Proof.Machine
end

