-- ==== Sys2Proof/Certificates/Slice0/Obligations.lean ====
section
/-! DEFINITION. The statements about the block, from the numbered rules of spec/. -/

open Sys2Proof Sys2Proof.Machine

/-! ### Command words -/

/-- Decoding a well-formed command's word gives the command back, whatever its operands (R71, R76). -/
def Obligations.DecodeOfEncodeIsTheCommand : Prop :=
  ∀ i : Instr, i.wellFormed = true → decode (encode i) = .ok i

/-- A word that decodes is the one word of a well-formed command: no bit of it is ignored (R73, R74). -/
def Obligations.DecodedWordIsTheCommandsOnlyWord : Prop :=
  ∀ (w : Word) (i : Instr), decode w = .ok i → i.wellFormed = true ∧ encode i = w

/-- The decoder accepts exactly the words that select a row of the opcode map, it answers that row's
command, and at most one row matches a word (R71). -/
def Obligations.DecoderFollowsTheOpcodeMap : Prop :=
  (∀ w : Word, (∃ i, decode w = .ok i) ↔ ∃ r ∈ opcodeRows, w &&& r.maskWord = r.matchWord) ∧
  (∀ (w : Word) (i : Instr), decode w = .ok i → i.row ∈ opcodeRows ∧
    w &&& i.row.maskWord = i.row.matchWord) ∧
  ∀ w : Word, ∀ r ∈ opcodeRows, ∀ r' ∈ opcodeRows, w &&& r.maskWord = r.matchWord →
    w &&& r'.maskWord = r'.matchWord → r = r'

/-- The worked encodings of R78, one for each format, both ways. -/
def Obligations.WorkedEncodingsHold : Prop :=
  (encode (.msgCreate 4) = 0x01000400#32 ∧ decode 0x01000400#32 = .ok (.msgCreate 4)) ∧
  (encode (.setU8 3 0xAB) = 0x100003AB#32 ∧ decode 0x100003AB#32 = .ok (.setU8 3 0xAB)) ∧
  (encode (.xorBytes 0x5A) = 0x2100005A#32 ∧ decode 0x2100005A#32 = .ok (.xorBytes 0x5A)) ∧
  (encode (.frmWrap 65543) = 0x31010007#32 ∧ decode 0x31010007#32 = .ok (.frmWrap 65543)) ∧
  (encode .encodeFrame = 0x30000000#32 ∧ decode 0x30000000#32 = .ok .encodeFrame)

/-- A step at which the host issues a word that decodes runs the decoded command on the state whose
list of host actions has moved on by one: by `cmd`, by `wr CMD`, by an aligned 32-bit write at port
address 0, and as `withFetchWord` places it (R21, R49, R51, R54). How the list is held is the model's
choice (log 2). -/
def Obligations.StepRunsTheDecodedCommand : Prop :=
  ∀ (s : State) (w : Word) (i : Instr) (rest : List Stimulus), decode w = .ok i →
    (s.pending = .host (.cmd w) :: rest → step s = exec i { s with pending := rest }) ∧
    (s.pending = .host (.wr .cmd w) :: rest → step s = exec i { s with pending := rest }) ∧
    (s.pending = .port (.write 0#19 .w32 w) :: rest →
      step s = exec i { s with pending := rest }) ∧
    step (s.withFetchWord 32 w.toNat) = exec i s

/-- A command line that the assembler accepts runs as its command, and the assembler refuses exactly
the operands that have no encoding; the three commands without operands assemble to their words
(R76, R77). -/
def Obligations.AssembledLineRunsAsItsCommand : Prop :=
  (∀ (i : Instr) (w : Word) (s : State) (rest : List Stimulus), assemble i = some w →
    s.pending = .host (.wr .cmd w) :: rest → step s = exec i { s with pending := rest }) ∧
  (∀ n, assemble (.msgCreate n) = none ↔ 65535 < n) ∧
  (∀ n, assemble (.msgWrap n) = none ↔ 65535 < n) ∧
  (∀ n k, assemble (.setU8 n k) = none ↔ 65535 < n ∨ 255 < k) ∧
  (∀ n, assemble (.getU8 n) = none ↔ 65535 < n) ∧
  (∀ n, assemble (.setU16 n) = none ↔ 65535 < n) ∧
  (∀ n, assemble (.getU16 n) = none ↔ 65535 < n) ∧
  (∀ n, assemble (.setStr n) = none ↔ 65535 < n) ∧
  (∀ n, assemble (.getStr n) = none ↔ 65535 < n) ∧
  (∀ k, assemble (.xorBytes k) = none ↔ 255 < k) ∧
  (∀ n, assemble (.frmWrap n) = none ↔ 16777215 < n) ∧
  assemble .crc16 = some 0x20000000#32 ∧ assemble .encodeFrame = some 0x30000000#32 ∧
  assemble .decodeFrame = some 0x32000000#32

/-- A word whose opcode is unassigned sets CODE to ILLEGAL_COMMAND (5) and STICKY to 1 and changes
nothing else (R72). -/
def Obligations.UnassignedOpcodeOnlyReports : Prop :=
  ∀ (w : Word) (s : State) (k : Nat), (w.extractLsb' 24 8).toNat = k →
    (k = 0x00 ∨ (0x03 ≤ k ∧ k ≤ 0x0F) ∨ (0x16 ≤ k ∧ k ≤ 0x1F) ∨ (0x22 ≤ k ∧ k ≤ 0x2F) ∨
      (0x33 ≤ k ∧ k ≤ 0xFF)) →
    issue w s = .next { s with code := 5#4, sticky := true }

/-- A word whose opcode is assigned but whose must-be-0 field holds a 1 has the same effect; the three
examples of the rule among them (R73). -/
def Obligations.NonzeroMustBeZeroFieldOnlyReports : Prop :=
  (∀ (w : Word) (s : State) (k : Nat), (w.extractLsb' 24 8).toNat = k →
    ((k ∈ [0x01, 0x02, 0x11, 0x12, 0x13, 0x14, 0x15] ∧ w.extractLsb' 0 8 ≠ 0#8) ∨
      (k = 0x21 ∧ w.extractLsb' 8 16 ≠ 0#16) ∨
      (k ∈ [0x20, 0x30, 0x32] ∧ w.extractLsb' 0 24 ≠ 0#24)) →
    issue w s = .next { s with code := 5#4, sticky := true }) ∧
  ∀ s : State, ∀ w ∈ [0x30000001#32, 0x01000401#32, 0x21000100#32],
    issue w s = .next { s with code := 5#4, sticky := true }

/-! ### Reset -/

/-- Reset leaves every register at 0 but CAP, which is `MSG_CAP` (R181); STATUS is CODE 0 and
STICKY 0. The state after reset that `State.reset` names is one of these. -/
def Obligations.ResetLeavesRegistersZero : Prop :=
  (∃ cap : Half, State.reset = State.resetWith cap) ∧
  ∀ cap : Half,
    (∀ r, r ≠ .cap → (State.resetWith cap).readReg r = 0#32) ∧
    (State.resetWith cap).readReg .cap = cap.setWidth 32 ∧
    (State.resetWith cap).code = 0#4 ∧ (State.resetWith cap).sticky = false

/-- The machine's own reset state: every register but CAP reads 0 (R181), and CAP reads 0xFFFF. That
the reset state is the one of the reference configuration of R7 is the model's choice (log 1). -/
def Obligations.ResetStateIsTheReferenceConfiguration : Prop :=
  (∀ r, r ≠ .cap → State.reset.readReg r = 0#32) ∧ State.reset.readReg .cap = 0x0000FFFF#32

/-- A pulse of the reset input does the same to a running block, keeps CAP, leaves no buffer byte
written and draws every one afresh (R180, R182). The form of the draws (log 4), their counter (log 5),
and that the host's actions go on after the pulse and what it has read stays (log 6) are the model's
choices. -/
def Obligations.ResetPulseResetsRegistersAndBuffers : Prop :=
  ∀ (s : State) (rest : List Stimulus), s.pending = .resetPulse :: rest →
    ∃ t, step s = .next t ∧ (∀ r, r ≠ .cap → t.readReg r = 0#32) ∧
      t.readReg .cap = s.readReg .cap ∧ (∀ b, t.buffer b = []) ∧
      t.epoch = s.epoch + 1 ∧ (∀ b i, t.byte b i = Config.freeByte (s.epoch + 1) b i) ∧
      t.pending = rest ∧ t.returned = s.returned

/-- The invariant holds after reset, for every legal `MSG_CAP`, the reference value among them. -/
def Obligations.ResetMeetsTheInvariant : Prop :=
  State.reset.Inv ∧ ∀ cap : Half, 1 ≤ cap.toNat → (State.resetWith cap).Inv

/-! ### The host's actions -/

/-- `rd REG` returns the register zero-extended to 32 bits, STATUS as STICKY, three zeros and CODE,
and CMD as 0, and changes nothing of the block (R50). The value is put on `returned` (log 3). -/
def Obligations.RegisterReadReturnsTheRegister : Prop :=
  (∀ (s : State) (r : Reg) (rest : List Stimulus), s.pending = .host (.rd r) :: rest →
    step s = .next { s with pending := rest, returned := s.readReg r :: s.returned }) ∧
  ∀ s : State,
    s.readReg .cmd = 0#32 ∧
    (s.readReg .status).toNat = 128 * s.sticky.toNat + s.code.toNat ∧
    (s.readReg .msgLen).toNat = s.msgLen.toNat ∧ (s.readReg .frmLen).toNat = s.frmLen.toNat ∧
    (s.readReg .data).toNat = s.data.toNat ∧ (s.readReg .count).toNat = s.count.toNat ∧
    (s.readReg .xor1).toNat = s.xor1.toNat ∧ (s.readReg .xor2).toNat = s.xor2.toNat ∧
    (s.readReg .crc).toNat = s.crc.toNat ∧ (s.readReg .cap).toNat = s.cap.toNat

/-- `wr REG, v` register by register, and a write at an offset that names no register (R51). -/
def Obligations.RegisterWriteActsByRegister : Prop :=
  (∀ (s : State) (v : Word),
    hostAction (.wr .data v) s = .next { s with data := v.extractLsb' 0 16 } ∧
    hostAction (.wr .count v) s = .next { s with count := v.extractLsb' 0 16 } ∧
    hostAction (.wr .xor1 v) s = .next { s with xor1 := v.extractLsb' 0 8 } ∧
    hostAction (.wr .xor2 v) s = .next { s with xor2 := v.extractLsb' 0 8 } ∧
    (v.getLsbD 7 = true → hostAction (.wr .status v) s = .next { s with sticky := false }) ∧
    (v.getLsbD 7 = false → hostAction (.wr .status v) s = .next s) ∧
    (∀ i, decode v = .ok i → hostAction (.wr .cmd v) s = exec i s) ∧
    (∀ e, decode v = .error e →
      hostAction (.wr .cmd v) s = .next { s with code := 5#4, sticky := true }) ∧
    ∀ r ∈ [Reg.msgLen, Reg.frmLen, Reg.crc, Reg.cap], hostAction (.wr r v) s = .next s) ∧
  ∀ (s : State) (addr : BitVec 19) (v : Word), 0x28 ≤ addr.toNat → addr.toNat < 0x10000 →
    addr.toNat % 4 = 0 → portAccess (.write addr .w32 v) s = .next s

/-- `bw BUF, i, b` writes the byte if the index is below the buffer's capacity, and has no effect
otherwise, whatever MSG_LEN and FRM_LEN are (R52). -/
def Obligations.HostBufferWriteStoresBelowCapacity : Prop :=
  ∀ (s : State) (b : Buffer) (i : Nat) (v : Byte),
    (i < Config.capacity s.cap.toNat b →
      ∃ t, hostAction (.bw b i v) s = .next t ∧ t.byte b i = v ∧ BytesKeptOutside b i 1 s t ∧
        (∀ r, t.readReg r = s.readReg r) ∧ t.epoch = s.epoch ∧ t.pending = s.pending ∧
        t.returned = s.returned) ∧
    (Config.capacity s.cap.toNat b ≤ i → hostAction (.bw b i v) s = .next s)

/-- `br BUF, i` returns the byte if the index is below the capacity and 0x00 otherwise, and changes
nothing of the block (R53). The value is put on `returned` (log 3). -/
def Obligations.HostBufferReadReturnsTheByte : Prop :=
  ∀ (s : State) (b : Buffer) (i : Nat),
    (i < Config.capacity s.cap.toNat b →
      hostAction (.br b i) s =
        .next { s with returned := (s.byte b i).setWidth 32 :: s.returned }) ∧
    (Config.capacity s.cap.toNat b ≤ i →
      hostAction (.br b i) s = .next { s with returned := 0#32 :: s.returned })

/-- The address map of the host port: a step whose next stimulus is a raw access is that access;
registers, the three windows, narrow or misaligned register accesses, and the reserved ranges, at any
alignment that touches no window (R54, R20). Where a value read is put (log 3), and that an access
wider than 8 bits that touches a window is refused, R54 giving it no effect, while one that runs past
0x7FFFF is taken at its own address (log 7), and that the widths are 8, 16 and 32 bits (log 16), are
the model's choices. -/
def Obligations.PortReachesWhatTheAddressMapSays : Prop :=
  (∀ (s : State) (p : PortAccess) (rest : List Stimulus), s.pending = .port p :: rest →
    step s = portAccess p { s with pending := rest }) ∧
  ∀ (s : State) (addr : BitVec 19) (width : Width) (v : Word),
    (∀ r : Reg, addr.toNat = r.offset →
      portAccess (.read addr .w32) s = hostAction (.rd r) s ∧
      portAccess (.write addr .w32 v) s = hostAction (.wr r v) s) ∧
    (∀ (b : Buffer) (base size : Nat),
      (b, base, size) ∈ [(Buffer.msg, 0x10000, 0x10000), (Buffer.str, 0x20000, 0x10000),
        (Buffer.frm, 0x40000, 0x20000)] →
      (base ≤ addr.toNat → addr.toNat < base + size →
        portAccess (.read addr .w8) s = hostAction (.br b (addr.toNat - base)) s ∧
        portAccess (.write addr .w8 v) s =
          hostAction (.bw b (addr.toNat - base) (v.extractLsb' 0 8)) s) ∧
      (width ≠ .w8 → base < addr.toNat + width.byteCount → addr.toNat < base + size →
        portAccess (.read addr width) s = .refused .widePortAccessToBuffer ∧
        portAccess (.write addr width v) s = .refused .widePortAccessToBuffer)) ∧
    (addr.toNat < 0x28 → (width ≠ .w32 ∨ addr.toNat % 4 ≠ 0) →
      portAccess (.read addr width) s = .next { s with returned := 0#32 :: s.returned } ∧
      portAccess (.write addr width v) s = .next s) ∧
    (((0x28 ≤ addr.toNat ∧ addr.toNat + width.byteCount ≤ 0x10000) ∨
        (0x30000 ≤ addr.toNat ∧ addr.toNat + width.byteCount ≤ 0x40000) ∨
        0x60000 ≤ addr.toNat) →
      portAccess (.read addr width) s = .next { s with returned := 0#32 :: s.returned } ∧
      portAccess (.write addr width v) s = .next s)

/-- No action can leave the block stuck: every host action, every command among them, whatever its
word, finishes in one step, which is that action on the state whose list has moved on (R18, R59). So
does a raw port access, but for the one the model refuses (log 7);
`PortReachesWhatTheAddressMapSays` says which. -/
def Obligations.EveryHostActionFinishesInOneStep : Prop :=
  (∀ (s : State) (a : HostAction) (rest : List Stimulus), s.pending = .host a :: rest →
    ∃ t, step s = .next t ∧ hostAction a { s with pending := rest } = .next t ∧
      t.pending = rest) ∧
  ∀ (s : State) (p : PortAccess) (rest : List Stimulus), s.pending = .port p :: rest →
    step s = .refused .widePortAccessToBuffer ∨
    ∃ t, step s = .next t ∧ portAccess p { s with pending := rest } = .next t ∧ t.pending = rest

/-- The block never acts on its own: with no stimulus pending a step changes nothing (R17, R174). That
such a step exists at all is the model's choice (log 2). -/
def Obligations.IdleBlockHoldsItsState : Prop :=
  ∀ s : State, s.pending = [] → step s = .next s

/-! ### STATUS -/

/-- Every CMD write, of a legal word or not, ends by setting CODE to exactly one code of R155 and
STICKY as `status(C)` does: kept if the code is OK, else 1. CODE reports that command alone: the code
is the same whatever CODE and STICKY were before (R156). -/
def Obligations.EveryCommandWriteSetsItsCode : Prop :=
  ∀ (w : Word) (s : State), ∃ t, issue w s = .next t ∧ t.code.toNat ≤ 5 ∧
    (t.code = 0#4 → t.sticky = s.sticky) ∧ (t.code ≠ 0#4 → t.sticky = true) ∧
    ∀ (code : BitVec 4) (sticky : Bool), ∃ u,
      issue w { s with code := code, sticky := sticky } = .next u ∧ u.code = t.code

/-- STICKY goes from 1 to 0 only by a host write of STATUS with bit 7 = 1, as an action or at the
port, or by reset (R157). -/
def Obligations.StickyClearedOnlyByHostOrReset : Prop :=
  ∀ s t : State, step s = .next t → s.sticky = true → t.sticky = false →
    (∃ v rest, s.pending = .host (.wr .status v) :: rest ∧ v.getLsbD 7 = true) ∨
    (∃ addr v rest, s.pending = .port (.write addr .w32 v) :: rest ∧ addr.toNat = 0x04 ∧
      v.getLsbD 7 = true) ∨
    ∃ rest, s.pending = .resetPulse :: rest

/-- A command that fails leaves the state as it was, but for STATUS; DECODE alone is excepted
(R165, R85). -/
def Obligations.FailedCommandChangesOnlyStatus : Prop :=
  ∀ (i : Instr) (s t : State), exec i s = .next t → t.code ≠ 0#4 → i ≠ .decodeFrame →
    t = { s with code := t.code, sticky := true }

/-! ### The Message buffer commands -/

/-- MSG_CREATE with a length within MSG_CAP makes a zero-filled Message of that length and changes no
byte beyond it (R86). -/
def Obligations.MsgCreateMakesAZeroMessage : Prop :=
  ∀ (s : State) (len : Nat), len ≤ s.cap.toNat →
    ∃ t, exec (.msgCreate len) s = .next t ∧ EndedOk [.msgLen] s t ∧ t.msgLen.toNat = len ∧
      (∀ i < len, t.byte .msg i = 0#8) ∧ BytesKeptOutside .msg 0 len s t

/-- MSG_WRAP with a length within MSG_CAP makes the bytes already in MSG the Message (R87). -/
def Obligations.MsgWrapAdoptsTheBytes : Prop :=
  ∀ (s : State) (len : Nat), len ≤ s.cap.toNat →
    ∃ t, exec (.msgWrap len) s = .next t ∧ EndedOk [.msgLen] s t ∧ t.msgLen.toNat = len ∧
      BytesKept s t

/-- LENGTH_OVERFLOW: MSG_CREATE or MSG_WRAP above MSG_CAP, FRM_WRAP above FRM_CAP, change nothing but
STATUS; with the reference MSG_CAP the first two never raise it, and FRM_WRAP does from 65544 on
(R161). -/
def Obligations.LengthOverflowOnlyReports : Prop :=
  (∀ (s : State) (len : Nat), s.cap.toNat < len →
    exec (.msgCreate len) s = .next { s with code := 4#4, sticky := true } ∧
    exec (.msgWrap len) s = .next { s with code := 4#4, sticky := true }) ∧
  (∀ (s : State) (len : Nat), s.cap.toNat + 8 < len →
    exec (.frmWrap len) s = .next { s with code := 4#4, sticky := true }) ∧
  (∀ (s : State) (len : Nat), s.cap = 65535#16 → len ≤ 65535 →
    (∃ t, exec (.msgCreate len) s = .next t ∧ t.code = 0#4) ∧
    ∃ t, exec (.msgWrap len) s = .next t ∧ t.code = 0#4) ∧
  ∀ (s : State) (len : Nat), s.cap = 65535#16 → 65544 ≤ len →
    exec (.frmWrap len) s = .next { s with code := 4#4, sticky := true }

/-- SET_U8 below MSG_LEN stores its value byte at its offset and nothing else (R88). -/
def Obligations.SetU8StoresOneByte : Prop :=
  ∀ (s : State) (off val : Nat), off < s.msgLen.toNat →
    ∃ t, exec (.setU8 off val) s = .next t ∧ EndedOk [] s t ∧
      t.byte .msg off = BitVec.ofNat 8 val ∧ BytesKeptOutside .msg off 1 s t

/-- GET_U8 below MSG_LEN puts the byte, zero-extended, into DATA (R89). -/
def Obligations.GetU8LoadsOneByte : Prop :=
  ∀ (s : State) (off : Nat), off < s.msgLen.toNat →
    ∃ t, exec (.getU8 off) s = .next t ∧ EndedOk [.data] s t ∧
      t.data.toNat = (s.byte .msg off).toNat ∧ BytesKept s t

/-- SET_U16 with both bytes inside the Message stores DATA, the high byte at the lower index, at an
odd offset as at an even one (R90, R45, R55). -/
def Obligations.SetU16StoresBigEndian : Prop :=
  ∀ (s : State) (off : Nat), off + 1 < s.msgLen.toNat →
    ∃ t, exec (.setU16 off) s = .next t ∧ EndedOk [] s t ∧
      t.byte .msg off = s.data.extractLsb' 8 8 ∧
      t.byte .msg (off + 1) = s.data.extractLsb' 0 8 ∧ BytesKeptOutside .msg off 2 s t

/-- GET_U16 with both bytes inside the Message puts `MSG[A] * 256 + MSG[A+1]` into DATA (R91, R10). -/
def Obligations.GetU16LoadsBigEndian : Prop :=
  ∀ (s : State) (off : Nat), off + 1 < s.msgLen.toNat →
    ∃ t, exec (.getU16 off) s = .next t ∧ EndedOk [.data] s t ∧
      t.data.toNat = (s.byte .msg off).toNat * 256 + (s.byte .msg (off + 1)).toNat ∧
      BytesKept s t

/-- A mixed-width view: after SET_U16 the two bytes are the value's high and low byte, GET_U8 at its
offset sees the high byte, GET_U8 at the next index the low byte, and GET_U16 the value (R46). -/
def Obligations.MixedWidthViewOfAStoredHalf : Prop :=
  ∀ (s : State) (off : Nat), off + 1 < s.msgLen.toNat →
    ∃ t u v w, exec (.setU16 off) s = .next t ∧
      t.byte .msg off = s.data.extractLsb' 8 8 ∧
      t.byte .msg (off + 1) = s.data.extractLsb' 0 8 ∧
      exec (.getU8 off) t = .next u ∧ u.data = (s.data.extractLsb' 8 8).setWidth 16 ∧
      exec (.getU8 (off + 1)) t = .next v ∧ v.data = (s.data.extractLsb' 0 8).setWidth 16 ∧
      exec (.getU16 off) t = .next w ∧ w.data = s.data

/-- SET_STR whose string ends before the Message's last byte copies STR[0..COUNT) to MSG[A..A+COUNT)
(R92). -/
def Obligations.SetStrCopiesTheText : Prop :=
  ∀ (s : State) (off : Nat), off + s.count.toNat < s.msgLen.toNat →
    ∃ t, exec (.setStr off) s = .next t ∧ EndedOk [] s t ∧
      (∀ i < s.count.toNat, t.byte .msg (off + i) = s.byte .str i) ∧
      BytesKeptOutside .msg off s.count.toNat s t

/-- GET_STR whose string ends before the Message's last byte copies MSG[A..A+COUNT) to STR[0..COUNT)
(R93). -/
def Obligations.GetStrCopiesTheText : Prop :=
  ∀ (s : State) (off : Nat), off + s.count.toNat < s.msgLen.toNat →
    ∃ t, exec (.getStr off) s = .next t ∧ EndedOk [] s t ∧
      (∀ i < s.count.toNat, t.byte .str i = s.byte .msg (off + i)) ∧
      BytesKeptOutside .str 0 s.count.toNat s t

/-- OUT_OF_RANGE: the three bounds tests of the six accessors, the string test one byte strict, and no
change but STATUS. The sums do not wrap (R158, R12). -/
def Obligations.AccessorOutOfRangeOnlyReports : Prop :=
  ∀ (s : State) (off val : Nat),
    (s.msgLen.toNat ≤ off →
      exec (.setU8 off val) s = .next { s with code := 1#4, sticky := true } ∧
      exec (.getU8 off) s = .next { s with code := 1#4, sticky := true }) ∧
    (s.msgLen.toNat ≤ off + 1 →
      exec (.setU16 off) s = .next { s with code := 1#4, sticky := true } ∧
      exec (.getU16 off) s = .next { s with code := 1#4, sticky := true }) ∧
    (s.msgLen.toNat ≤ off + s.count.toNat →
      exec (.setStr off) s = .next { s with code := 1#4, sticky := true } ∧
      exec (.getStr off) s = .next { s with code := 1#4, sticky := true })

/-! ### The checksum and the cipher -/

/-- The CRC function, byte after byte from 0xFFFF: XOR the byte into the accumulator, then eight times
shift right and XOR with 0xA001 if the bit shifted out was 1 (R110). -/
def Obligations.CrcIsTheBitSerialAlgorithm : Prop :=
  crc16 [] = 0xFFFF#16 ∧
  ∀ (s : List Byte) (b : Byte),
    crc16 (s ++ [b]) =
      (fun acc : Half => if acc.getLsbD 0 = true then (acc >>> 1) ^^^ 0xA001#16 else acc >>> 1)^[8]
        (crc16 s ^^^ b.setWidth 16)

/-- The source's check value and the derived values of V-CRC (R117; 95_test_vectors.md). -/
def Obligations.CrcCheckValuesHold : Prop :=
  crc16 [] = 0xFFFF#16 ∧
  crc16 [0x31#8, 0x32#8, 0x33#8, 0x34#8, 0x35#8, 0x36#8, 0x37#8, 0x38#8, 0x39#8] = 0x4B37#16 ∧
  crc16 [0x00#8] = 0x40BF#16 ∧ crc16 [0xFF#8] = 0x00FF#16 ∧ crc16 [0x01#8] = 0x807E#16 ∧
  crc16 [0x41#8] = 0x707F#16 ∧ crc16 [0x00#8, 0x00#8] = 0xB001#16 ∧
  crc16 [0x48#8, 0x69#8] = 0x9EF7#16 ∧ crc16 [0xED#8, 0xCC#8] = 0xB54C#16 ∧
  crc16 [0x01#8, 0x03#8, 0x00#8, 0x00#8, 0x00#8, 0x0A#8] = 0xCDC5#16 ∧
  crc16 [0x11#8, 0x03#8, 0x00#8, 0x6B#8, 0x00#8, 0x03#8] = 0x8776#16

/-- A table-driven CRC, one look-up a byte, gives the result of the bit-serial one on every input
(R111). -/
def Obligations.TableDrivenCrcAgrees : Prop := ∀ s : List Byte, crc16TableDriven s = crc16 s

/-- CRC16 puts the CRC of the current Message into CRC and changes no byte (R112). -/
def Obligations.Crc16ComputesTheMessageCrc : Prop :=
  ∀ s : State, ∃ t, exec .crc16 s = .next t ∧ EndedOk [.crc] s t ∧
    t.crc = crc16 ((List.range s.msgLen.toNat).map (s.byte .msg)) ∧ BytesKept s t

/-- XOR_BYTES replaces every byte of the Message by its XOR with the key byte, and no other byte
(R114, R113). -/
def Obligations.XorBytesCiphersTheMessage : Prop :=
  ∀ (s : State) (key : Nat), ∃ t, exec (.xorBytes key) s = .next t ∧ EndedOk [] s t ∧
    (∀ i < s.msgLen.toNat, t.byte .msg i = s.byte .msg i ^^^ BitVec.ofNat 8 key) ∧
    BytesKeptOutside .msg 0 s.msgLen.toNat s t

/-- The laws of the XOR function, and of the command that exposes it: involution, composition, and the
key 0 (R115). -/
def Obligations.XorLawsHold : Prop :=
  (∀ (s : List Byte) (k k' : Byte),
    xorBytes (xorBytes s k) k = s ∧ xorBytes (xorBytes s k) k' = xorBytes s (k ^^^ k') ∧
    xorBytes s 0#8 = s) ∧
  ∀ (s : State) (k k' : Byte), ∃ t u v, exec (.xorBytes k.toNat) s = .next t ∧
    exec (.xorBytes k'.toNat) t = .next u ∧ exec (.xorBytes (k ^^^ k').toNat) s = .next v ∧
    BytesKeptOutside .msg 0 s.msgLen.toNat s u ∧
    (∀ x j, u.byte x j = v.byte x j) ∧ (k = k' → BytesKept s u) ∧ (k = 0#8 → BytesKept s t)

/-! ### The frame -/

/-- FRM_WRAP with a length within FRM_CAP makes the bytes already in FRM the frame, any length from 0
on (R128). -/
def Obligations.FrmWrapAdoptsTheBytes : Prop :=
  ∀ (s : State) (len : Nat), len ≤ s.cap.toNat + 8 →
    ∃ t, exec (.frmWrap len) s = .next t ∧ EndedOk [.frmLen] s t ∧ t.frmLen.toNat = len ∧
      BytesKept s t

/-- ENCODE builds the frame of R125 from the Message and the two keys, byte by byte in the closed form
of R129, with the pad byte of R126 and the key trailer of R131; it leaves MSG twice ciphered (R137) and
every other byte as it was (R188). -/
def Obligations.EncodeBuildsTheFrame : Prop :=
  ∀ (s : State) (n : Nat) (c : Half), n = s.msgLen.toNat →
    c = crc16 ((List.range n).map (fun i => s.byte .msg i ^^^ s.xor2)) →
    ∃ t, exec .encodeFrame s = .next t ∧ EndedOk [.frmLen, .crc] s t ∧
      t.frmLen.toNat = 8 + n ∧ t.crc = c ∧
      t.byte .frm 0 = s.xor1 ∧
      t.byte .frm 1 = s.msgLen.extractLsb' 8 8 ∧ t.byte .frm 2 = s.msgLen.extractLsb' 0 8 ∧
      (∀ i < n, t.byte .frm (3 + i) =
        s.byte .msg i ^^^ s.xor2 ^^^ s.xor1 ^^^ c.extractLsb' 8 8) ∧
      t.byte .frm (3 + n) = c.extractLsb' 8 8 ∧ t.byte .frm (4 + n) = c.extractLsb' 0 8 ∧
      t.byte .frm (5 + n) = s.xor2 ∧
      t.byte .frm (6 + n) = s.xor2 ^^^ s.msgLen.extractLsb' 0 8 ∧
      t.byte .frm (7 + n) = 0x00#8 ∧
      (∀ i < n, t.byte .msg i = t.byte .frm (3 + i)) ∧
      ∀ x j, ¬ (x = .msg ∧ j < n) → ¬ (x = .frm ∧ j < 8 + n) → t.byte x j = s.byte x j

/-- After ENCODE, FRM_LEN = 8 + MSG_LEN (R139). -/
def Obligations.FrameLengthIsEightPlusMessageLength : Prop :=
  ∀ s : State, ∃ t, exec .encodeFrame s = .next t ∧ t.frmLen.toNat = 8 + t.msgLen.toNat

/-- DECODE of a frame of at least 8 bytes whose length field fits returns the body as the new Message,
deciphered in place in FRM too, and the keys and the CRC; it checks no checksum (R132, R134, R137). -/
def Obligations.DecodeRecoversBodyAndKeys : Prop :=
  ∀ (s : State) (n : Nat) (k1 k2 k3 : Byte),
    8 ≤ s.frmLen.toNat → n = (s.byte .frm 1).toNat * 256 + (s.byte .frm 2).toNat →
    n ≤ s.frmLen.toNat - 8 →
    k1 = s.byte .frm 0 → k2 = s.byte .frm (6 + n) ^^^ s.byte .frm 2 →
    k3 = k1 ^^^ s.byte .frm (3 + n) →
    ∃ t, exec .decodeFrame s = .next t ∧ EndedOk [.msgLen, .xor1, .xor2, .crc] s t ∧
      t.msgLen.toNat = n ∧ t.xor1 = k1 ∧ t.xor2 = k2 ∧
      t.crc.toNat = (s.byte .frm (3 + n)).toNat * 256 + (s.byte .frm (4 + n)).toNat ∧
      (∀ i < n, t.byte .msg i = s.byte .frm (3 + i) ^^^ k3 ^^^ k2) ∧
      (∀ i < n, t.byte .frm (3 + i) = t.byte .msg i) ∧
      ∀ x j, ¬ (x = .msg ∧ j < n) → ¬ (x = .frm ∧ 3 ≤ j ∧ j < 3 + n) → t.byte x j = s.byte x j

/-- DECODE's failure exit: MSG_LEN, XOR1, XOR2 and CRC become 0, CODE is MALFORMED_FRAME for a frame
shorter than 8 bytes and else TRUNCATED_FRAME for a length field above FRM_LEN - 8, STICKY is set, and
no byte is written (R133, R159). -/
def Obligations.DecodeFailureWritesTheSentinels : Prop :=
  ∀ s : State,
    (s.frmLen.toNat < 8 →
      exec .decodeFrame s = .next { s with
        msgLen := 0#16, xor1 := 0#8, xor2 := 0#8, crc := 0#16, code := 2#4, sticky := true }) ∧
    (8 ≤ s.frmLen.toNat →
      s.frmLen.toNat - 8 < (s.byte .frm 1).toNat * 256 + (s.byte .frm 2).toNat →
      exec .decodeFrame s = .next { s with
        msgLen := 0#16, xor1 := 0#8, xor2 := 0#8, crc := 0#16, code := 3#4, sticky := true })

/-- Round trip: ENCODE followed at once by DECODE ends with the original body, the original keys and
CODE = OK, for every Message and all keys (R138). -/
def Obligations.DecodeAfterEncodeRestoresBodyAndKeys : Prop :=
  ∀ s : State, ∃ t u, exec .encodeFrame s = .next t ∧ exec .decodeFrame t = .next u ∧
    u.msgLen = s.msgLen ∧ (∀ i < s.msgLen.toNat, u.byte .msg i = s.byte .msg i) ∧
    u.xor1 = s.xor1 ∧ u.xor2 = s.xor2 ∧ u.code = 0#4

/-- A change to the key trailer's high byte, to the CRC's low byte or to the pad byte, in a frame that
decodes, changes neither the recovered body nor the keys (R135). -/
def Obligations.DecodeIgnoresThreeFrameBytes : Prop :=
  ∀ (s s' : State) (n : Nat),
    8 ≤ s.frmLen.toNat → s'.frmLen = s.frmLen →
    n = (s.byte .frm 1).toNat * 256 + (s.byte .frm 2).toNat → n ≤ s.frmLen.toNat - 8 →
    (∀ j, j ≠ 4 + n → j ≠ 5 + n → j ≠ 7 + n → s'.byte .frm j = s.byte .frm j) →
    ∃ t t', exec .decodeFrame s = .next t ∧ exec .decodeFrame s' = .next t' ∧
      t.code = 0#4 ∧ t'.code = 0#4 ∧ t'.msgLen = t.msgLen ∧
      (∀ i < n, t'.byte .msg i = t.byte .msg i) ∧ t'.xor1 = t.xor1 ∧ t'.xor2 = t.xor2

/-- A frame longer than its length field needs decodes with OK, and the bytes at index 8 + n and above
are not read: they, and the excess length, change no output (R136). -/
def Obligations.DecodeIgnoresBytesAfterTheFrame : Prop :=
  ∀ (s s' : State) (n : Nat),
    n = (s.byte .frm 1).toNat * 256 + (s.byte .frm 2).toNat →
    8 + n ≤ s.frmLen.toNat → 8 + n ≤ s'.frmLen.toNat →
    (∀ j < 8 + n, s'.byte .frm j = s.byte .frm j) →
    ∃ t t', exec .decodeFrame s = .next t ∧ exec .decodeFrame s' = .next t' ∧
      t.code = 0#4 ∧ t'.code = 0#4 ∧ t'.msgLen = t.msgLen ∧
      (∀ i < n, t'.byte .msg i = t.byte .msg i) ∧
      (∀ i < 8 + n, t'.byte .frm i = t.byte .frm i) ∧
      t'.xor1 = t.xor1 ∧ t'.xor2 = t.xor2 ∧ t'.crc = t.crc

/-- A second DECODE of the same FRM reports OK, gives the same length, keys and CRC, and returns the
body XORed with `k2 ^ k3` (R185). -/
def Obligations.SecondDecodeAppliesBothPassesAgain : Prop :=
  ∀ (s : State) (n : Nat), 8 ≤ s.frmLen.toNat →
    n = (s.byte .frm 1).toNat * 256 + (s.byte .frm 2).toNat → n ≤ s.frmLen.toNat - 8 →
    ∃ t u, exec .decodeFrame s = .next t ∧ exec .decodeFrame t = .next u ∧
      t.code = 0#4 ∧ u.code = 0#4 ∧ t.msgLen.toNat = n ∧ u.msgLen = t.msgLen ∧
      u.xor1 = t.xor1 ∧ u.xor2 = t.xor2 ∧ u.crc = t.crc ∧
      ∀ i < n, u.byte .msg i =
        t.byte .msg i ^^^ (t.xor2 ^^^ (t.xor1 ^^^ t.crc.extractLsb' 8 8))

/-- The check that DECODE leaves to the host (R6): after ENCODE and DECODE, ciphering the Message with
the recovered second key and taking its CRC gives the trailer's CRC again, for every Message and all
keys. -/
def Obligations.HostIntegrityCheckAcceptsEncodedFrames : Prop :=
  ∀ s : State, ∃ t u v w, exec .encodeFrame s = .next t ∧ exec .decodeFrame t = .next u ∧
    exec (.xorBytes u.xor2.toNat) u = .next v ∧ exec .crc16 v = .next w ∧
    u.crc = t.crc ∧ w.crc = u.crc

/-! ### The whole machine -/

/-- The invariant is kept by every step: `MSG_CAP` stays legal, the lengths within their capacities,
CODE at most 5, and every buffer's written bytes in canonical form and inside the buffer (R23, R24,
R30, R155). -/
def Obligations.EveryStepKeepsTheInvariant : Prop :=
  ∀ s t : State, s.Inv → step s = .next t → t.Inv

/-- The summary of what each command may write: no other register, no other byte, and nothing of the
host's side changes (R40). -/
def Obligations.CommandsWriteOnlyWhatTheTableLists : Prop :=
  ∀ (i : Instr) (s t : State), exec i s = .next t →
    (∀ r, r ∉ writesReg i → r ≠ .status → t.readReg r = s.readReg r) ∧
    (∀ b j, ¬ writesByte i s b j → t.byte b j = s.byte b j) ∧
    t.epoch = s.epoch ∧ t.pending = s.pending ∧ t.returned = s.returned

/-- No command reads a byte outside the current Message, the current frame or STR[0..COUNT): on two
states that agree on these and on the registers it ends with the same registers, and, unless it adopts
bytes already in a buffer, in states that agree so again (R33, R56, R136). -/
def Obligations.CommandsReadOnlyLiveBytes : Prop :=
  ∀ (i : Instr) (s s' : State), AgreeOnLive s s' →
    ∃ t t', exec i s = .next t ∧ exec i s' = .next t' ∧ (∀ r, t.readReg r = t'.readReg r) ∧
      (adopts i = false → AgreeOnLive t t')
end

