-- ==== Sys2Proof/Laws/Decode.lean ====
section
/-! SUPPORT. What the decoder can answer, said once. -/

namespace Sys2Proof

/-- A word whose must-be-0 bits are 0 is the command. -/
theorem checkZero_ok {f : Format} {w : Word} (i : Instr) (h : w &&& f.mustBeZero = 0#32) :
    checkZero f w i = .ok i := if_pos h

/-- The must-be-0 check answers a command only where the bits are 0, and then that command. -/
theorem checkZero_inv {f : Format} {w : Word} {i j : Instr} (h : checkZero f w j = .ok i) :
    w &&& f.mustBeZero = 0#32 ∧ i = j := by
  unfold checkZero at h
  split at h
  · rename_i hz
    injection h with h
    exact ⟨hz, h.symm⟩
  · cases h

/-- Everything the decoder can answer: one of the thirteen rows of R71, by its opcode, with its
must-be-0 field 0 and its operands from their fields. -/
theorem decode_inv {w : Word} {i : Instr} (h : decode w = .ok i) :
    (opcField w = 0x01#8 ∧ w &&& 0x000000FF#32 = 0#32 ∧ i = .msgCreate (aField w).toNat) ∨
    (opcField w = 0x02#8 ∧ w &&& 0x000000FF#32 = 0#32 ∧ i = .msgWrap (aField w).toNat) ∨
    (opcField w = 0x10#8 ∧ i = .setU8 (aField w).toNat (bField w).toNat) ∨
    (opcField w = 0x11#8 ∧ w &&& 0x000000FF#32 = 0#32 ∧ i = .getU8 (aField w).toNat) ∨
    (opcField w = 0x12#8 ∧ w &&& 0x000000FF#32 = 0#32 ∧ i = .setU16 (aField w).toNat) ∨
    (opcField w = 0x13#8 ∧ w &&& 0x000000FF#32 = 0#32 ∧ i = .getU16 (aField w).toNat) ∨
    (opcField w = 0x14#8 ∧ w &&& 0x000000FF#32 = 0#32 ∧ i = .setStr (aField w).toNat) ∨
    (opcField w = 0x15#8 ∧ w &&& 0x000000FF#32 = 0#32 ∧ i = .getStr (aField w).toNat) ∨
    (opcField w = 0x20#8 ∧ w &&& 0x00FFFFFF#32 = 0#32 ∧ i = .crc16) ∨
    (opcField w = 0x21#8 ∧ w &&& 0x00FFFF00#32 = 0#32 ∧ i = .xorBytes (bField w).toNat) ∨
    (opcField w = 0x30#8 ∧ w &&& 0x00FFFFFF#32 = 0#32 ∧ i = .encodeFrame) ∨
    (opcField w = 0x31#8 ∧ i = .frmWrap (lField w).toNat) ∨
    (opcField w = 0x32#8 ∧ w &&& 0x00FFFFFF#32 = 0#32 ∧ i = .decodeFrame) := by
  unfold decode at h
  split at h
  case h_14 => cases h
  all_goals
    obtain ⟨hz, hi⟩ := checkZero_inv h
    simp_all [Format.mustBeZero]

end Sys2Proof
end

