-- ==== Sys2Proof/Laws/State.lean ====
section
/-! SUPPORT. One lemma for each field of the state and each update of it, true by unfolding once, so
that no later proof unfolds a record update. -/

namespace Sys2Proof.Machine

open Sys2Proof

/-! ### State.setMsgLen -/

@[simp] theorem State.setMsgLen_code (s : State) (v : Half) :
    (s.setMsgLen v).code = s.code := rfl

@[simp] theorem State.setMsgLen_sticky (s : State) (v : Half) :
    (s.setMsgLen v).sticky = s.sticky := rfl

@[simp] theorem State.setMsgLen_msgLen (s : State) (v : Half) :
    (s.setMsgLen v).msgLen = v := rfl

@[simp] theorem State.setMsgLen_frmLen (s : State) (v : Half) :
    (s.setMsgLen v).frmLen = s.frmLen := rfl

@[simp] theorem State.setMsgLen_data (s : State) (v : Half) :
    (s.setMsgLen v).data = s.data := rfl

@[simp] theorem State.setMsgLen_count (s : State) (v : Half) :
    (s.setMsgLen v).count = s.count := rfl

@[simp] theorem State.setMsgLen_xor1 (s : State) (v : Half) :
    (s.setMsgLen v).xor1 = s.xor1 := rfl

@[simp] theorem State.setMsgLen_xor2 (s : State) (v : Half) :
    (s.setMsgLen v).xor2 = s.xor2 := rfl

@[simp] theorem State.setMsgLen_crc (s : State) (v : Half) :
    (s.setMsgLen v).crc = s.crc := rfl

@[simp] theorem State.setMsgLen_cap (s : State) (v : Half) :
    (s.setMsgLen v).cap = s.cap := rfl

@[simp] theorem State.setMsgLen_msg (s : State) (v : Half) :
    (s.setMsgLen v).msg = s.msg := rfl

@[simp] theorem State.setMsgLen_frm (s : State) (v : Half) :
    (s.setMsgLen v).frm = s.frm := rfl

@[simp] theorem State.setMsgLen_str (s : State) (v : Half) :
    (s.setMsgLen v).str = s.str := rfl

@[simp] theorem State.setMsgLen_epoch (s : State) (v : Half) :
    (s.setMsgLen v).epoch = s.epoch := rfl

@[simp] theorem State.setMsgLen_pending (s : State) (v : Half) :
    (s.setMsgLen v).pending = s.pending := rfl

@[simp] theorem State.setMsgLen_returned (s : State) (v : Half) :
    (s.setMsgLen v).returned = s.returned := rfl

@[simp] theorem State.setMsgLen_buffer (s : State) (v : Half) (x : Buffer) :
    (s.setMsgLen v).buffer x = s.buffer x := rfl

@[simp] theorem State.setMsgLen_byte (s : State) (v : Half) (x : Buffer) (i : Nat) :
    (s.setMsgLen v).byte x i = s.byte x i := rfl

@[simp] theorem State.setMsgLen_bytes (s : State) (v : Half) (x : Buffer) (i n : Nat) :
    (s.setMsgLen v).bytes x i n = s.bytes x i n := rfl

@[simp] theorem State.setMsgLen_capacity (s : State) (v : Half) (x : Buffer) :
    (s.setMsgLen v).capacity x = s.capacity x := rfl

/-! ### State.setFrmLen -/

@[simp] theorem State.setFrmLen_code (s : State) (v : Long) :
    (s.setFrmLen v).code = s.code := rfl

@[simp] theorem State.setFrmLen_sticky (s : State) (v : Long) :
    (s.setFrmLen v).sticky = s.sticky := rfl

@[simp] theorem State.setFrmLen_msgLen (s : State) (v : Long) :
    (s.setFrmLen v).msgLen = s.msgLen := rfl

@[simp] theorem State.setFrmLen_frmLen (s : State) (v : Long) :
    (s.setFrmLen v).frmLen = v := rfl

@[simp] theorem State.setFrmLen_data (s : State) (v : Long) :
    (s.setFrmLen v).data = s.data := rfl

@[simp] theorem State.setFrmLen_count (s : State) (v : Long) :
    (s.setFrmLen v).count = s.count := rfl

@[simp] theorem State.setFrmLen_xor1 (s : State) (v : Long) :
    (s.setFrmLen v).xor1 = s.xor1 := rfl

@[simp] theorem State.setFrmLen_xor2 (s : State) (v : Long) :
    (s.setFrmLen v).xor2 = s.xor2 := rfl

@[simp] theorem State.setFrmLen_crc (s : State) (v : Long) :
    (s.setFrmLen v).crc = s.crc := rfl

@[simp] theorem State.setFrmLen_cap (s : State) (v : Long) :
    (s.setFrmLen v).cap = s.cap := rfl

@[simp] theorem State.setFrmLen_msg (s : State) (v : Long) :
    (s.setFrmLen v).msg = s.msg := rfl

@[simp] theorem State.setFrmLen_frm (s : State) (v : Long) :
    (s.setFrmLen v).frm = s.frm := rfl

@[simp] theorem State.setFrmLen_str (s : State) (v : Long) :
    (s.setFrmLen v).str = s.str := rfl

@[simp] theorem State.setFrmLen_epoch (s : State) (v : Long) :
    (s.setFrmLen v).epoch = s.epoch := rfl

@[simp] theorem State.setFrmLen_pending (s : State) (v : Long) :
    (s.setFrmLen v).pending = s.pending := rfl

@[simp] theorem State.setFrmLen_returned (s : State) (v : Long) :
    (s.setFrmLen v).returned = s.returned := rfl

@[simp] theorem State.setFrmLen_buffer (s : State) (v : Long) (x : Buffer) :
    (s.setFrmLen v).buffer x = s.buffer x := rfl

@[simp] theorem State.setFrmLen_byte (s : State) (v : Long) (x : Buffer) (i : Nat) :
    (s.setFrmLen v).byte x i = s.byte x i := rfl

@[simp] theorem State.setFrmLen_bytes (s : State) (v : Long) (x : Buffer) (i n : Nat) :
    (s.setFrmLen v).bytes x i n = s.bytes x i n := rfl

@[simp] theorem State.setFrmLen_capacity (s : State) (v : Long) (x : Buffer) :
    (s.setFrmLen v).capacity x = s.capacity x := rfl

/-! ### State.setData -/

@[simp] theorem State.setData_code (s : State) (v : Half) :
    (s.setData v).code = s.code := rfl

@[simp] theorem State.setData_sticky (s : State) (v : Half) :
    (s.setData v).sticky = s.sticky := rfl

@[simp] theorem State.setData_msgLen (s : State) (v : Half) :
    (s.setData v).msgLen = s.msgLen := rfl

@[simp] theorem State.setData_frmLen (s : State) (v : Half) :
    (s.setData v).frmLen = s.frmLen := rfl

@[simp] theorem State.setData_data (s : State) (v : Half) :
    (s.setData v).data = v := rfl

@[simp] theorem State.setData_count (s : State) (v : Half) :
    (s.setData v).count = s.count := rfl

@[simp] theorem State.setData_xor1 (s : State) (v : Half) :
    (s.setData v).xor1 = s.xor1 := rfl

@[simp] theorem State.setData_xor2 (s : State) (v : Half) :
    (s.setData v).xor2 = s.xor2 := rfl

@[simp] theorem State.setData_crc (s : State) (v : Half) :
    (s.setData v).crc = s.crc := rfl

@[simp] theorem State.setData_cap (s : State) (v : Half) :
    (s.setData v).cap = s.cap := rfl

@[simp] theorem State.setData_msg (s : State) (v : Half) :
    (s.setData v).msg = s.msg := rfl

@[simp] theorem State.setData_frm (s : State) (v : Half) :
    (s.setData v).frm = s.frm := rfl

@[simp] theorem State.setData_str (s : State) (v : Half) :
    (s.setData v).str = s.str := rfl

@[simp] theorem State.setData_epoch (s : State) (v : Half) :
    (s.setData v).epoch = s.epoch := rfl

@[simp] theorem State.setData_pending (s : State) (v : Half) :
    (s.setData v).pending = s.pending := rfl

@[simp] theorem State.setData_returned (s : State) (v : Half) :
    (s.setData v).returned = s.returned := rfl

@[simp] theorem State.setData_buffer (s : State) (v : Half) (x : Buffer) :
    (s.setData v).buffer x = s.buffer x := rfl

@[simp] theorem State.setData_byte (s : State) (v : Half) (x : Buffer) (i : Nat) :
    (s.setData v).byte x i = s.byte x i := rfl

@[simp] theorem State.setData_bytes (s : State) (v : Half) (x : Buffer) (i n : Nat) :
    (s.setData v).bytes x i n = s.bytes x i n := rfl

@[simp] theorem State.setData_capacity (s : State) (v : Half) (x : Buffer) :
    (s.setData v).capacity x = s.capacity x := rfl

/-! ### State.setCount -/

@[simp] theorem State.setCount_code (s : State) (v : Half) :
    (s.setCount v).code = s.code := rfl

@[simp] theorem State.setCount_sticky (s : State) (v : Half) :
    (s.setCount v).sticky = s.sticky := rfl

@[simp] theorem State.setCount_msgLen (s : State) (v : Half) :
    (s.setCount v).msgLen = s.msgLen := rfl

@[simp] theorem State.setCount_frmLen (s : State) (v : Half) :
    (s.setCount v).frmLen = s.frmLen := rfl

@[simp] theorem State.setCount_data (s : State) (v : Half) :
    (s.setCount v).data = s.data := rfl

@[simp] theorem State.setCount_count (s : State) (v : Half) :
    (s.setCount v).count = v := rfl

@[simp] theorem State.setCount_xor1 (s : State) (v : Half) :
    (s.setCount v).xor1 = s.xor1 := rfl

@[simp] theorem State.setCount_xor2 (s : State) (v : Half) :
    (s.setCount v).xor2 = s.xor2 := rfl

@[simp] theorem State.setCount_crc (s : State) (v : Half) :
    (s.setCount v).crc = s.crc := rfl

@[simp] theorem State.setCount_cap (s : State) (v : Half) :
    (s.setCount v).cap = s.cap := rfl

@[simp] theorem State.setCount_msg (s : State) (v : Half) :
    (s.setCount v).msg = s.msg := rfl

@[simp] theorem State.setCount_frm (s : State) (v : Half) :
    (s.setCount v).frm = s.frm := rfl

@[simp] theorem State.setCount_str (s : State) (v : Half) :
    (s.setCount v).str = s.str := rfl

@[simp] theorem State.setCount_epoch (s : State) (v : Half) :
    (s.setCount v).epoch = s.epoch := rfl

@[simp] theorem State.setCount_pending (s : State) (v : Half) :
    (s.setCount v).pending = s.pending := rfl

@[simp] theorem State.setCount_returned (s : State) (v : Half) :
    (s.setCount v).returned = s.returned := rfl

@[simp] theorem State.setCount_buffer (s : State) (v : Half) (x : Buffer) :
    (s.setCount v).buffer x = s.buffer x := rfl

@[simp] theorem State.setCount_byte (s : State) (v : Half) (x : Buffer) (i : Nat) :
    (s.setCount v).byte x i = s.byte x i := rfl

@[simp] theorem State.setCount_bytes (s : State) (v : Half) (x : Buffer) (i n : Nat) :
    (s.setCount v).bytes x i n = s.bytes x i n := rfl

@[simp] theorem State.setCount_capacity (s : State) (v : Half) (x : Buffer) :
    (s.setCount v).capacity x = s.capacity x := rfl

/-! ### State.setXor1 -/

@[simp] theorem State.setXor1_code (s : State) (v : Byte) :
    (s.setXor1 v).code = s.code := rfl

@[simp] theorem State.setXor1_sticky (s : State) (v : Byte) :
    (s.setXor1 v).sticky = s.sticky := rfl

@[simp] theorem State.setXor1_msgLen (s : State) (v : Byte) :
    (s.setXor1 v).msgLen = s.msgLen := rfl

@[simp] theorem State.setXor1_frmLen (s : State) (v : Byte) :
    (s.setXor1 v).frmLen = s.frmLen := rfl

@[simp] theorem State.setXor1_data (s : State) (v : Byte) :
    (s.setXor1 v).data = s.data := rfl

@[simp] theorem State.setXor1_count (s : State) (v : Byte) :
    (s.setXor1 v).count = s.count := rfl

@[simp] theorem State.setXor1_xor1 (s : State) (v : Byte) :
    (s.setXor1 v).xor1 = v := rfl

@[simp] theorem State.setXor1_xor2 (s : State) (v : Byte) :
    (s.setXor1 v).xor2 = s.xor2 := rfl

@[simp] theorem State.setXor1_crc (s : State) (v : Byte) :
    (s.setXor1 v).crc = s.crc := rfl

@[simp] theorem State.setXor1_cap (s : State) (v : Byte) :
    (s.setXor1 v).cap = s.cap := rfl

@[simp] theorem State.setXor1_msg (s : State) (v : Byte) :
    (s.setXor1 v).msg = s.msg := rfl

@[simp] theorem State.setXor1_frm (s : State) (v : Byte) :
    (s.setXor1 v).frm = s.frm := rfl

@[simp] theorem State.setXor1_str (s : State) (v : Byte) :
    (s.setXor1 v).str = s.str := rfl

@[simp] theorem State.setXor1_epoch (s : State) (v : Byte) :
    (s.setXor1 v).epoch = s.epoch := rfl

@[simp] theorem State.setXor1_pending (s : State) (v : Byte) :
    (s.setXor1 v).pending = s.pending := rfl

@[simp] theorem State.setXor1_returned (s : State) (v : Byte) :
    (s.setXor1 v).returned = s.returned := rfl

@[simp] theorem State.setXor1_buffer (s : State) (v : Byte) (x : Buffer) :
    (s.setXor1 v).buffer x = s.buffer x := rfl

@[simp] theorem State.setXor1_byte (s : State) (v : Byte) (x : Buffer) (i : Nat) :
    (s.setXor1 v).byte x i = s.byte x i := rfl

@[simp] theorem State.setXor1_bytes (s : State) (v : Byte) (x : Buffer) (i n : Nat) :
    (s.setXor1 v).bytes x i n = s.bytes x i n := rfl

@[simp] theorem State.setXor1_capacity (s : State) (v : Byte) (x : Buffer) :
    (s.setXor1 v).capacity x = s.capacity x := rfl

/-! ### State.setXor2 -/

@[simp] theorem State.setXor2_code (s : State) (v : Byte) :
    (s.setXor2 v).code = s.code := rfl

@[simp] theorem State.setXor2_sticky (s : State) (v : Byte) :
    (s.setXor2 v).sticky = s.sticky := rfl

@[simp] theorem State.setXor2_msgLen (s : State) (v : Byte) :
    (s.setXor2 v).msgLen = s.msgLen := rfl

@[simp] theorem State.setXor2_frmLen (s : State) (v : Byte) :
    (s.setXor2 v).frmLen = s.frmLen := rfl

@[simp] theorem State.setXor2_data (s : State) (v : Byte) :
    (s.setXor2 v).data = s.data := rfl

@[simp] theorem State.setXor2_count (s : State) (v : Byte) :
    (s.setXor2 v).count = s.count := rfl

@[simp] theorem State.setXor2_xor1 (s : State) (v : Byte) :
    (s.setXor2 v).xor1 = s.xor1 := rfl

@[simp] theorem State.setXor2_xor2 (s : State) (v : Byte) :
    (s.setXor2 v).xor2 = v := rfl

@[simp] theorem State.setXor2_crc (s : State) (v : Byte) :
    (s.setXor2 v).crc = s.crc := rfl

@[simp] theorem State.setXor2_cap (s : State) (v : Byte) :
    (s.setXor2 v).cap = s.cap := rfl

@[simp] theorem State.setXor2_msg (s : State) (v : Byte) :
    (s.setXor2 v).msg = s.msg := rfl

@[simp] theorem State.setXor2_frm (s : State) (v : Byte) :
    (s.setXor2 v).frm = s.frm := rfl

@[simp] theorem State.setXor2_str (s : State) (v : Byte) :
    (s.setXor2 v).str = s.str := rfl

@[simp] theorem State.setXor2_epoch (s : State) (v : Byte) :
    (s.setXor2 v).epoch = s.epoch := rfl

@[simp] theorem State.setXor2_pending (s : State) (v : Byte) :
    (s.setXor2 v).pending = s.pending := rfl

@[simp] theorem State.setXor2_returned (s : State) (v : Byte) :
    (s.setXor2 v).returned = s.returned := rfl

@[simp] theorem State.setXor2_buffer (s : State) (v : Byte) (x : Buffer) :
    (s.setXor2 v).buffer x = s.buffer x := rfl

@[simp] theorem State.setXor2_byte (s : State) (v : Byte) (x : Buffer) (i : Nat) :
    (s.setXor2 v).byte x i = s.byte x i := rfl

@[simp] theorem State.setXor2_bytes (s : State) (v : Byte) (x : Buffer) (i n : Nat) :
    (s.setXor2 v).bytes x i n = s.bytes x i n := rfl

@[simp] theorem State.setXor2_capacity (s : State) (v : Byte) (x : Buffer) :
    (s.setXor2 v).capacity x = s.capacity x := rfl

/-! ### State.setCrc -/

@[simp] theorem State.setCrc_code (s : State) (v : Half) :
    (s.setCrc v).code = s.code := rfl

@[simp] theorem State.setCrc_sticky (s : State) (v : Half) :
    (s.setCrc v).sticky = s.sticky := rfl

@[simp] theorem State.setCrc_msgLen (s : State) (v : Half) :
    (s.setCrc v).msgLen = s.msgLen := rfl

@[simp] theorem State.setCrc_frmLen (s : State) (v : Half) :
    (s.setCrc v).frmLen = s.frmLen := rfl

@[simp] theorem State.setCrc_data (s : State) (v : Half) :
    (s.setCrc v).data = s.data := rfl

@[simp] theorem State.setCrc_count (s : State) (v : Half) :
    (s.setCrc v).count = s.count := rfl

@[simp] theorem State.setCrc_xor1 (s : State) (v : Half) :
    (s.setCrc v).xor1 = s.xor1 := rfl

@[simp] theorem State.setCrc_xor2 (s : State) (v : Half) :
    (s.setCrc v).xor2 = s.xor2 := rfl

@[simp] theorem State.setCrc_crc (s : State) (v : Half) :
    (s.setCrc v).crc = v := rfl

@[simp] theorem State.setCrc_cap (s : State) (v : Half) :
    (s.setCrc v).cap = s.cap := rfl

@[simp] theorem State.setCrc_msg (s : State) (v : Half) :
    (s.setCrc v).msg = s.msg := rfl

@[simp] theorem State.setCrc_frm (s : State) (v : Half) :
    (s.setCrc v).frm = s.frm := rfl

@[simp] theorem State.setCrc_str (s : State) (v : Half) :
    (s.setCrc v).str = s.str := rfl

@[simp] theorem State.setCrc_epoch (s : State) (v : Half) :
    (s.setCrc v).epoch = s.epoch := rfl

@[simp] theorem State.setCrc_pending (s : State) (v : Half) :
    (s.setCrc v).pending = s.pending := rfl

@[simp] theorem State.setCrc_returned (s : State) (v : Half) :
    (s.setCrc v).returned = s.returned := rfl

@[simp] theorem State.setCrc_buffer (s : State) (v : Half) (x : Buffer) :
    (s.setCrc v).buffer x = s.buffer x := rfl

@[simp] theorem State.setCrc_byte (s : State) (v : Half) (x : Buffer) (i : Nat) :
    (s.setCrc v).byte x i = s.byte x i := rfl

@[simp] theorem State.setCrc_bytes (s : State) (v : Half) (x : Buffer) (i n : Nat) :
    (s.setCrc v).bytes x i n = s.bytes x i n := rfl

@[simp] theorem State.setCrc_capacity (s : State) (v : Half) (x : Buffer) :
    (s.setCrc v).capacity x = s.capacity x := rfl

/-! ### State.status -/

@[simp] theorem State.status_code (s : State) (c : Code) :
    (s.status c).code = c.bits := rfl

@[simp] theorem State.status_sticky (s : State) (c : Code) :
    (s.status c).sticky = stickyAfter s.sticky c := rfl

@[simp] theorem State.status_msgLen (s : State) (c : Code) :
    (s.status c).msgLen = s.msgLen := rfl

@[simp] theorem State.status_frmLen (s : State) (c : Code) :
    (s.status c).frmLen = s.frmLen := rfl

@[simp] theorem State.status_data (s : State) (c : Code) :
    (s.status c).data = s.data := rfl

@[simp] theorem State.status_count (s : State) (c : Code) :
    (s.status c).count = s.count := rfl

@[simp] theorem State.status_xor1 (s : State) (c : Code) :
    (s.status c).xor1 = s.xor1 := rfl

@[simp] theorem State.status_xor2 (s : State) (c : Code) :
    (s.status c).xor2 = s.xor2 := rfl

@[simp] theorem State.status_crc (s : State) (c : Code) :
    (s.status c).crc = s.crc := rfl

@[simp] theorem State.status_cap (s : State) (c : Code) :
    (s.status c).cap = s.cap := rfl

@[simp] theorem State.status_msg (s : State) (c : Code) :
    (s.status c).msg = s.msg := rfl

@[simp] theorem State.status_frm (s : State) (c : Code) :
    (s.status c).frm = s.frm := rfl

@[simp] theorem State.status_str (s : State) (c : Code) :
    (s.status c).str = s.str := rfl

@[simp] theorem State.status_epoch (s : State) (c : Code) :
    (s.status c).epoch = s.epoch := rfl

@[simp] theorem State.status_pending (s : State) (c : Code) :
    (s.status c).pending = s.pending := rfl

@[simp] theorem State.status_returned (s : State) (c : Code) :
    (s.status c).returned = s.returned := rfl

@[simp] theorem State.status_buffer (s : State) (c : Code) (x : Buffer) :
    (s.status c).buffer x = s.buffer x := rfl

@[simp] theorem State.status_byte (s : State) (c : Code) (x : Buffer) (i : Nat) :
    (s.status c).byte x i = s.byte x i := rfl

@[simp] theorem State.status_bytes (s : State) (c : Code) (x : Buffer) (i n : Nat) :
    (s.status c).bytes x i n = s.bytes x i n := rfl

@[simp] theorem State.status_capacity (s : State) (c : Code) (x : Buffer) :
    (s.status c).capacity x = s.capacity x := rfl

/-! ### State.deliver -/

@[simp] theorem State.deliver_code (s : State) (v : Word) :
    (s.deliver v).code = s.code := rfl

@[simp] theorem State.deliver_sticky (s : State) (v : Word) :
    (s.deliver v).sticky = s.sticky := rfl

@[simp] theorem State.deliver_msgLen (s : State) (v : Word) :
    (s.deliver v).msgLen = s.msgLen := rfl

@[simp] theorem State.deliver_frmLen (s : State) (v : Word) :
    (s.deliver v).frmLen = s.frmLen := rfl

@[simp] theorem State.deliver_data (s : State) (v : Word) :
    (s.deliver v).data = s.data := rfl

@[simp] theorem State.deliver_count (s : State) (v : Word) :
    (s.deliver v).count = s.count := rfl

@[simp] theorem State.deliver_xor1 (s : State) (v : Word) :
    (s.deliver v).xor1 = s.xor1 := rfl

@[simp] theorem State.deliver_xor2 (s : State) (v : Word) :
    (s.deliver v).xor2 = s.xor2 := rfl

@[simp] theorem State.deliver_crc (s : State) (v : Word) :
    (s.deliver v).crc = s.crc := rfl

@[simp] theorem State.deliver_cap (s : State) (v : Word) :
    (s.deliver v).cap = s.cap := rfl

@[simp] theorem State.deliver_msg (s : State) (v : Word) :
    (s.deliver v).msg = s.msg := rfl

@[simp] theorem State.deliver_frm (s : State) (v : Word) :
    (s.deliver v).frm = s.frm := rfl

@[simp] theorem State.deliver_str (s : State) (v : Word) :
    (s.deliver v).str = s.str := rfl

@[simp] theorem State.deliver_epoch (s : State) (v : Word) :
    (s.deliver v).epoch = s.epoch := rfl

@[simp] theorem State.deliver_pending (s : State) (v : Word) :
    (s.deliver v).pending = s.pending := rfl

@[simp] theorem State.deliver_returned (s : State) (v : Word) :
    (s.deliver v).returned = v :: s.returned := rfl

@[simp] theorem State.deliver_buffer (s : State) (v : Word) (x : Buffer) :
    (s.deliver v).buffer x = s.buffer x := rfl

@[simp] theorem State.deliver_byte (s : State) (v : Word) (x : Buffer) (i : Nat) :
    (s.deliver v).byte x i = s.byte x i := rfl

@[simp] theorem State.deliver_bytes (s : State) (v : Word) (x : Buffer) (i n : Nat) :
    (s.deliver v).bytes x i n = s.bytes x i n := rfl

@[simp] theorem State.deliver_capacity (s : State) (v : Word) (x : Buffer) :
    (s.deliver v).capacity x = s.capacity x := rfl

/-! ### State.withBuffer and State.put -/

@[simp] theorem State.withBuffer_code (s : State) (b : Buffer) (m : Memory) :
    (s.withBuffer b m).code = s.code := by cases b <;> rfl

@[simp] theorem State.withBuffer_sticky (s : State) (b : Buffer) (m : Memory) :
    (s.withBuffer b m).sticky = s.sticky := by cases b <;> rfl

@[simp] theorem State.withBuffer_msgLen (s : State) (b : Buffer) (m : Memory) :
    (s.withBuffer b m).msgLen = s.msgLen := by cases b <;> rfl

@[simp] theorem State.withBuffer_frmLen (s : State) (b : Buffer) (m : Memory) :
    (s.withBuffer b m).frmLen = s.frmLen := by cases b <;> rfl

@[simp] theorem State.withBuffer_data (s : State) (b : Buffer) (m : Memory) :
    (s.withBuffer b m).data = s.data := by cases b <;> rfl

@[simp] theorem State.withBuffer_count (s : State) (b : Buffer) (m : Memory) :
    (s.withBuffer b m).count = s.count := by cases b <;> rfl

@[simp] theorem State.withBuffer_xor1 (s : State) (b : Buffer) (m : Memory) :
    (s.withBuffer b m).xor1 = s.xor1 := by cases b <;> rfl

@[simp] theorem State.withBuffer_xor2 (s : State) (b : Buffer) (m : Memory) :
    (s.withBuffer b m).xor2 = s.xor2 := by cases b <;> rfl

@[simp] theorem State.withBuffer_crc (s : State) (b : Buffer) (m : Memory) :
    (s.withBuffer b m).crc = s.crc := by cases b <;> rfl

@[simp] theorem State.withBuffer_cap (s : State) (b : Buffer) (m : Memory) :
    (s.withBuffer b m).cap = s.cap := by cases b <;> rfl

@[simp] theorem State.withBuffer_epoch (s : State) (b : Buffer) (m : Memory) :
    (s.withBuffer b m).epoch = s.epoch := by cases b <;> rfl

@[simp] theorem State.withBuffer_pending (s : State) (b : Buffer) (m : Memory) :
    (s.withBuffer b m).pending = s.pending := by cases b <;> rfl

@[simp] theorem State.withBuffer_returned (s : State) (b : Buffer) (m : Memory) :
    (s.withBuffer b m).returned = s.returned := by cases b <;> rfl

@[simp] theorem State.withBuffer_capacity (s : State) (b : Buffer) (m : Memory) (x : Buffer) :
    (s.withBuffer b m).capacity x = s.capacity x := by cases b <;> rfl

@[simp] theorem State.withBuffer_buffer (s : State) (b : Buffer) (m : Memory) (x : Buffer) :
    (s.withBuffer b m).buffer x = if x = b then m else s.buffer x := by
  cases b <;> cases x <;> rfl

@[simp] theorem State.put_code (s : State) (b : Buffer) (i : Nat) (vs : List Byte) :
    (s.put b i vs).code = s.code := by simp [State.put]

@[simp] theorem State.put_sticky (s : State) (b : Buffer) (i : Nat) (vs : List Byte) :
    (s.put b i vs).sticky = s.sticky := by simp [State.put]

@[simp] theorem State.put_msgLen (s : State) (b : Buffer) (i : Nat) (vs : List Byte) :
    (s.put b i vs).msgLen = s.msgLen := by simp [State.put]

@[simp] theorem State.put_frmLen (s : State) (b : Buffer) (i : Nat) (vs : List Byte) :
    (s.put b i vs).frmLen = s.frmLen := by simp [State.put]

@[simp] theorem State.put_data (s : State) (b : Buffer) (i : Nat) (vs : List Byte) :
    (s.put b i vs).data = s.data := by simp [State.put]

@[simp] theorem State.put_count (s : State) (b : Buffer) (i : Nat) (vs : List Byte) :
    (s.put b i vs).count = s.count := by simp [State.put]

@[simp] theorem State.put_xor1 (s : State) (b : Buffer) (i : Nat) (vs : List Byte) :
    (s.put b i vs).xor1 = s.xor1 := by simp [State.put]

@[simp] theorem State.put_xor2 (s : State) (b : Buffer) (i : Nat) (vs : List Byte) :
    (s.put b i vs).xor2 = s.xor2 := by simp [State.put]

@[simp] theorem State.put_crc (s : State) (b : Buffer) (i : Nat) (vs : List Byte) :
    (s.put b i vs).crc = s.crc := by simp [State.put]

@[simp] theorem State.put_cap (s : State) (b : Buffer) (i : Nat) (vs : List Byte) :
    (s.put b i vs).cap = s.cap := by simp [State.put]

@[simp] theorem State.put_epoch (s : State) (b : Buffer) (i : Nat) (vs : List Byte) :
    (s.put b i vs).epoch = s.epoch := by simp [State.put]

@[simp] theorem State.put_pending (s : State) (b : Buffer) (i : Nat) (vs : List Byte) :
    (s.put b i vs).pending = s.pending := by simp [State.put]

@[simp] theorem State.put_returned (s : State) (b : Buffer) (i : Nat) (vs : List Byte) :
    (s.put b i vs).returned = s.returned := by simp [State.put]

@[simp] theorem State.put_capacity (s : State) (b : Buffer) (i : Nat) (vs : List Byte) (x : Buffer) :
    (s.put b i vs).capacity x = s.capacity x := by simp [State.put]

@[simp] theorem State.put_buffer (s : State) (b : Buffer) (i : Nat) (vs : List Byte) (x : Buffer) :
    (s.put b i vs).buffer x = if x = b then Memory.put (s.buffer b) i vs else s.buffer x := by
  simp [State.put]

/-! ### State.pulseReset -/

@[simp] theorem State.pulseReset_code (s : State) : s.pulseReset.code = 0#4 := rfl

@[simp] theorem State.pulseReset_sticky (s : State) : s.pulseReset.sticky = false := rfl

@[simp] theorem State.pulseReset_msgLen (s : State) : s.pulseReset.msgLen = 0#16 := rfl

@[simp] theorem State.pulseReset_frmLen (s : State) : s.pulseReset.frmLen = 0#24 := rfl

@[simp] theorem State.pulseReset_data (s : State) : s.pulseReset.data = 0#16 := rfl

@[simp] theorem State.pulseReset_count (s : State) : s.pulseReset.count = 0#16 := rfl

@[simp] theorem State.pulseReset_xor1 (s : State) : s.pulseReset.xor1 = 0#8 := rfl

@[simp] theorem State.pulseReset_xor2 (s : State) : s.pulseReset.xor2 = 0#8 := rfl

@[simp] theorem State.pulseReset_crc (s : State) : s.pulseReset.crc = 0#16 := rfl

@[simp] theorem State.pulseReset_cap (s : State) : s.pulseReset.cap = s.cap := rfl

@[simp] theorem State.pulseReset_msg (s : State) : s.pulseReset.msg = [] := rfl

@[simp] theorem State.pulseReset_frm (s : State) : s.pulseReset.frm = [] := rfl

@[simp] theorem State.pulseReset_str (s : State) : s.pulseReset.str = [] := rfl

@[simp] theorem State.pulseReset_epoch (s : State) : s.pulseReset.epoch = s.epoch + 1 := rfl

@[simp] theorem State.pulseReset_pending (s : State) : s.pulseReset.pending = s.pending := rfl

@[simp] theorem State.pulseReset_returned (s : State) : s.pulseReset.returned = s.returned := rfl

end Sys2Proof.Machine
end

