-- ==== Sys2Proof/Laws/Memory.lean ====
section
/-! SUPPORT. What a write to a buffer does: to its canonical form, to each byte, and to nothing else. -/

namespace Sys2Proof.Machine

open Sys2Proof

@[simp] theorem Memory.get?_nil (i : Nat) : Memory.get? [] i = none := rfl

theorem Memory.get?_cons (c : Host.Cell) (m : Memory) (i : Nat) :
    Memory.get? (c :: m) i = if c.1 = i then some c.2 else Memory.get? m i := rfl

/-- An index that no entry has holds no written byte. -/
theorem Memory.get?_eq_none {m : Memory} {i : Nat} (h : ∀ c ∈ m, c.1 ≠ i) :
    Memory.get? m i = none := by
  induction m with
  | nil => rfl
  | cons c m ih =>
    rw [Memory.get?_cons, if_neg (h c (by simp)), ih fun d hd => h d (by simp [hd])]

theorem Memory.get?_append (m₁ m₂ : Memory) (i : Nat) :
    Memory.get? (m₁ ++ m₂) i = (Memory.get? m₁ i).or (Memory.get? m₂ i) := by
  induction m₁ with
  | nil => simp
  | cons c m ih => by_cases h : c.1 = i <;> simp [Memory.get?_cons, h, ih]

/-- Filtering by index keeps the byte at a kept index and drops the others. -/
theorem Memory.get?_filter (m : Memory) (p : Nat → Bool) (i : Nat) :
    Memory.get? (m.filter fun c => p c.1) i = if p i then Memory.get? m i else none := by
  induction m with
  | nil => simp
  | cons c m ih =>
    by_cases hp : p c.1 <;> by_cases hc : c.1 = i
    · subst hc; simp [Memory.get?_cons, hp]
    · simp [Memory.get?_cons, hp, hc, ih]
    · subst hc; simp [hp, ih]
    · simp [Memory.get?_cons, hp, hc, ih]

theorem Memory.cells_index (i : Nat) (vs : List Byte) :
    ∀ c ∈ Memory.cells i vs, i ≤ c.1 ∧ c.1 < i + vs.length := by
  induction vs generalizing i with
  | nil => simp [Memory.cells]
  | cons v vs ih =>
    intro c hc
    rcases List.mem_cons.1 hc with rfl | hc
    · simp
    · have := ih (i + 1) c hc
      simp only [List.length_cons]
      omega

theorem Memory.get?_cells (i : Nat) (vs : List Byte) (j : Nat) :
    Memory.get? (Memory.cells i vs) j = if i ≤ j then vs[j - i]? else none := by
  induction vs generalizing i with
  | nil => simp [Memory.cells]
  | cons v vs ih =>
    rw [Memory.cells, Memory.get?_cons, ih]
    rcases Nat.lt_trichotomy i j with h | h | h
    · rw [if_neg (by omega), if_pos (by omega), if_pos (by omega),
        show j - i = (j - (i + 1)) + 1 by omega, List.getElem?_cons_succ]
    · subst h; simp
    · rw [if_neg (by omega), if_neg (by omega), if_neg (by omega)]

/-- A byte after a write: the byte written there, or the byte as before. -/
theorem Memory.get?_put (m : Memory) (i : Nat) (vs : List Byte) (j : Nat) :
    Memory.get? (Memory.put m i vs) j =
      if i ≤ j ∧ j < i + vs.length then vs[j - i]? else Memory.get? m j := by
  rw [Memory.put, Memory.get?_append, Memory.get?_append, Memory.get?_cells,
    Memory.get?_filter m (fun k => decide (k < i)),
    Memory.get?_filter m (fun k => decide (i + vs.length ≤ k))]
  have before : (decide (j < i) = true) ↔ j < i := by simp
  have after : (decide (i + vs.length ≤ j) = true) ↔ i + vs.length ≤ j := by simp
  simp only [before, after]
  rcases Nat.lt_or_ge j i with h | h
  · simp [h, show ¬ i ≤ j by omega, show ¬ i + vs.length ≤ j by omega]
  · rcases Nat.lt_or_ge j (i + vs.length) with h' | h'
    · have hk : j - i < vs.length := by omega
      simp [h, h', show ¬ j < i by omega, show ¬ i + vs.length ≤ j by omega,
        List.getElem?_eq_getElem hk]
    · simp [h, h', show ¬ j < i by omega, show ¬ j < i + vs.length by omega,
        List.getElem?_eq_none (show vs.length ≤ j - i by omega)]

theorem Memory.wf_cells (i : Nat) (vs : List Byte) : Memory.wf (Memory.cells i vs) := by
  induction vs generalizing i with
  | nil => exact List.Pairwise.nil
  | cons v vs ih =>
    refine List.Pairwise.cons (fun c hc => ?_) (ih (i + 1))
    have := Memory.cells_index (i + 1) vs c hc
    show i < c.1
    omega

/-- The empty buffer is in canonical form. -/
@[simp] theorem Memory.wf_nil : Memory.wf [] := List.Pairwise.nil

/-- A write keeps the canonical form. -/
theorem Memory.wf_put {m : Memory} (h : Memory.wf m) (i : Nat) (vs : List Byte) :
    Memory.wf (Memory.put m i vs) := by
  unfold Memory.put Memory.wf
  rw [List.pairwise_append, List.pairwise_append]
  refine ⟨⟨h.filter _, Memory.wf_cells i vs, fun c hc d hd => ?_⟩, h.filter _,
    fun c hc d hd => ?_⟩
  · have h1 := (List.mem_filter.1 hc).2
    have h2 := Memory.cells_index i vs d hd
    simp only [decide_eq_true_eq] at h1
    omega
  · have h2 := (List.mem_filter.1 hd).2
    simp only [decide_eq_true_eq] at h2
    rcases List.mem_append.1 hc with hc | hc
    · have h1 := (List.mem_filter.1 hc).2
      simp only [decide_eq_true_eq] at h1
      omega
    · have h1 := Memory.cells_index i vs c hc
      omega

/-- A write of bytes below `cap` keeps every listed index below `cap`. -/
theorem Memory.below_put {m : Memory} {cap i : Nat} {vs : List Byte} (h : Memory.below m cap)
    (hv : i + vs.length ≤ cap) : Memory.below (Memory.put m i vs) cap := by
  intro c hc
  rcases List.mem_append.1 hc with hc | hc
  · rcases List.mem_append.1 hc with hc | hc
    · exact h c (List.mem_of_mem_filter hc)
    · have := Memory.cells_index i vs c hc
      omega
  · exact h c (List.mem_of_mem_filter hc)

/-- Two buffers in canonical form that hold the same written bytes are the same data. -/
theorem Memory.ext_of_wf {m₁ m₂ : Memory} (h₁ : Memory.wf m₁) (h₂ : Memory.wf m₂)
    (h : ∀ i, Memory.get? m₁ i = Memory.get? m₂ i) : m₁ = m₂ := by
  induction m₁ generalizing m₂ with
  | nil =>
    cases m₂ with
    | nil => rfl
    | cons c m => have := h c.1; simp [Memory.get?_cons] at this
  | cons c m ih =>
    cases m₂ with
    | nil => have := h c.1; simp [Memory.get?_cons] at this
    | cons d m' =>
      obtain ⟨hc, hm⟩ := List.pairwise_cons.1 h₁
      obtain ⟨hd, hm'⟩ := List.pairwise_cons.1 h₂
      have none_below : ∀ {l : Memory} {k i : Nat}, (∀ e ∈ l, k < e.1) → i ≤ k →
          Memory.get? l i = none := fun hl hi =>
        Memory.get?_eq_none fun e he => by have := hl e he; omega
      have hcd : c.1 = d.1 := by
        rcases Nat.lt_trichotomy c.1 d.1 with hlt | heq | hlt
        · have := h c.1
          rw [Memory.get?_cons, if_pos rfl, Memory.get?_cons, if_neg (by omega),
            none_below hd (by omega)] at this
          cases this
        · exact heq
        · have := h d.1
          rw [Memory.get?_cons, if_neg (by omega), none_below hc (by omega),
            Memory.get?_cons, if_pos rfl] at this
          cases this
      have hv : c.2 = d.2 := by
        have := h c.1
        rw [Memory.get?_cons, if_pos rfl, Memory.get?_cons, if_pos hcd.symm] at this
        exact Option.some.inj this
      have hrest : m = m' := by
        refine ih hm hm' fun i => ?_
        by_cases hi : i = c.1
        · rw [none_below hc (by omega), none_below hd (by omega)]
        · have := h i
          rwa [Memory.get?_cons, if_neg (by omega), Memory.get?_cons, if_neg (by omega)] at this
      rw [hrest, Prod.ext hcd hv]

end Sys2Proof.Machine
end

