-- ==== Sys2Proof/Laws/Ops.lean ====
section
/-! SUPPORT. For each shared operation, once, everything it does; the statements cite these instead
of unfolding the operation. -/

namespace Sys2Proof.Machine

open Sys2Proof

/-! ### Operands -/

@[simp] theorem frameOverhead_eq : Config.frameOverhead = 8 := rfl

theorem State.capacity_msg (s : State) : s.capacity .msg = s.cap.toNat := rfl

theorem State.capacity_str (s : State) : s.capacity .str = s.cap.toNat := rfl

theorem State.capacity_frm (s : State) : s.capacity .frm = s.cap.toNat + 8 := rfl

theorem State.overflows_iff (s : State) (b : Buffer) (len : Nat) :
    s.overflows b len = true ↔ s.capacity b < len := by simp [State.overflows]

theorem State.outOfRange8_iff (s : State) (off : Nat) :
    s.outOfRange8 off = true ↔ s.msgLen.toNat ≤ off := by simp [State.outOfRange8]

theorem State.outOfRange16_iff (s : State) (off : Nat) :
    s.outOfRange16 off = true ↔ s.msgLen.toNat ≤ off + 1 := by simp [State.outOfRange16]

theorem State.outOfRangeStr_iff (s : State) (off : Nat) :
    s.outOfRangeStr off = true ↔ s.msgLen.toNat ≤ off + s.count.toNat := by
  simp [State.outOfRangeStr]

theorem State.frameShort_iff (s : State) : s.frameShort = true ↔ s.frmLen.toNat < 8 :=
  decide_eq_true_iff

theorem State.bodyTooLong_iff (s : State) (n : Half) :
    s.bodyTooLong n = true ↔ s.frmLen.toNat - 8 < n.toNat :=
  decide_eq_true_iff

theorem State.overflows_eq_false (s : State) (b : Buffer) (len : Nat) :
    s.overflows b len = false ↔ len ≤ s.capacity b := by
  rw [← Bool.not_eq_true, State.overflows_iff, Nat.not_lt]

theorem State.outOfRange8_eq_false (s : State) (off : Nat) :
    s.outOfRange8 off = false ↔ off < s.msgLen.toNat := by
  rw [← Bool.not_eq_true, State.outOfRange8_iff, Nat.not_le]

theorem State.outOfRange16_eq_false (s : State) (off : Nat) :
    s.outOfRange16 off = false ↔ off + 1 < s.msgLen.toNat := by
  rw [← Bool.not_eq_true, State.outOfRange16_iff, Nat.not_le]

theorem State.outOfRangeStr_eq_false (s : State) (off : Nat) :
    s.outOfRangeStr off = false ↔ off + s.count.toNat < s.msgLen.toNat := by
  rw [← Bool.not_eq_true, State.outOfRangeStr_iff, Nat.not_le]

theorem State.frameShort_eq_false (s : State) : s.frameShort = false ↔ 8 ≤ s.frmLen.toNat := by
  rw [← Bool.not_eq_true, State.frameShort_iff, Nat.not_lt]

theorem State.bodyTooLong_eq_false (s : State) (n : Half) :
    s.bodyTooLong n = false ↔ n.toNat ≤ s.frmLen.toNat - 8 := by
  rw [← Bool.not_eq_true, State.bodyTooLong_iff, Nat.not_lt]

@[simp] theorem bigEndian_length (v : Half) : (bigEndian v).length = 2 := rfl

/-- The two bytes of a 16-bit value, put together again, are the value. -/
@[simp] theorem concatBytes_high_low (v : Half) : concatBytes (highByte v) (lowByte v) = v := by
  show (v.extractLsb' 8 8 ++ v.extractLsb' 0 8 : BitVec (8 + 8)) = v
  ext i hi
  rw [BitVec.getElem_append]
  split
  · simp [BitVec.getLsbD_eq_getElem hi]
  · simp [show 8 + (i - 8) = i by omega, BitVec.getLsbD_eq_getElem hi]

/-- The high byte of two bytes put together is the first. -/
@[simp] theorem highByte_concatBytes (a b : Byte) : highByte (concatBytes a b) = a := by
  show (a ++ b : BitVec (8 + 8)).extractLsb' 8 8 = a
  ext i hi
  rw [BitVec.getElem_extractLsb', BitVec.getLsbD_append, if_neg (by omega),
    Nat.add_sub_cancel_left, BitVec.getLsbD_eq_getElem hi]

/-- The low byte of two bytes put together is the second. -/
@[simp] theorem lowByte_concatBytes (a b : Byte) : lowByte (concatBytes a b) = b := by
  show (a ++ b : BitVec (8 + 8)).extractLsb' 0 8 = b
  ext i hi
  rw [BitVec.getElem_extractLsb', BitVec.getLsbD_append, if_pos (by omega), Nat.zero_add,
    BitVec.getLsbD_eq_getElem hi]

/-- `{a, b}` is the 16-bit value `a*256 + b` (R10). -/
theorem concatBytes_toNat (a b : Byte) : (concatBytes a b).toNat = a.toNat * 256 + b.toNat := by
  show (a ++ b : BitVec (8 + 8)).toNat = _
  rw [BitVec.toNat_append, ← Nat.shiftLeft_add_eq_or_of_lt b.isLt, Nat.shiftLeft_eq]

/-! ### STATUS -/

@[simp] theorem stickyAfter_ok (sticky : Bool) : stickyAfter sticky .ok = sticky := rfl

/-- STICKY is set by every code but OK (R156). -/
theorem stickyAfter_of_ne_ok (sticky : Bool) {c : Code} (h : c ≠ .ok) :
    stickyAfter sticky c = true := by cases c <;> simp_all [stickyAfter]

/-- Codes above 5 are never produced (R155). -/
theorem Code.bits_le (c : Code) : c.bits.toNat ≤ 5 := by cases c <;> decide

theorem Code.bits_eq_zero {c : Code} : c.bits = 0#4 ↔ c = .ok := by cases c <;> decide

/-- STATUS as a number: STICKY counts 128, CODE counts itself, and bits 6:4 are 0 (R22). -/
theorem statusByte_toNat (sticky : Bool) (code : BitVec 4) :
    (statusByte sticky code).toNat = 128 * sticky.toNat + code.toNat := by
  cases sticky
  · show (0#1 ++ 0#3 ++ code : BitVec (1 + 3 + 4)).toNat = _
    simp only [BitVec.toNat_append, ← Nat.shiftLeft_add_eq_or_of_lt code.isLt]
    simp
  · show (1#1 ++ 0#3 ++ code : BitVec (1 + 3 + 4)).toNat = _
    simp only [BitVec.toNat_append, ← Nat.shiftLeft_add_eq_or_of_lt code.isLt]
    simp

/-! ### Reading and writing buffers -/

/-- Everything a write to a buffer does to the bytes: the bytes written are there, in order, and
every other byte of every buffer is as before. -/
theorem State.byte_put (s : State) (b : Buffer) (i : Nat) (vs : List Byte) (x : Buffer) (j : Nat) :
    (s.put b i vs).byte x j =
      if h : x = b ∧ i ≤ j ∧ j < i + vs.length then vs[j - i]'(by omega) else s.byte x j := by
  unfold State.byte State.unwritten
  rw [State.put_epoch, State.put_buffer]
  by_cases hx : x = b
  · subst hx
    rw [if_pos rfl, Memory.get?_put]
    by_cases hj : i ≤ j ∧ j < i + vs.length
    · have hk : j - i < vs.length := by omega
      rw [if_pos hj, dif_pos ⟨rfl, hj⟩, List.getElem?_eq_getElem hk]
      rfl
    · rw [if_neg hj, dif_neg fun h => hj h.2]
  · rw [if_neg hx, dif_neg fun h => hx h.1]

theorem State.byte_put_outside (s : State) (b : Buffer) (i : Nat) (vs : List Byte) {x : Buffer}
    {j : Nat} (h : ¬ (x = b ∧ i ≤ j ∧ j < i + vs.length)) :
    (s.put b i vs).byte x j = s.byte x j := by rw [State.byte_put, dif_neg h]

theorem State.byte_put_at (s : State) (b : Buffer) (i : Nat) (vs : List Byte) (k : Nat)
    (hk : k < vs.length) : (s.put b i vs).byte b (i + k) = vs[k] := by
  rw [State.byte_put, dif_pos ⟨rfl, by omega, by omega⟩]
  simp

@[simp] theorem State.bytes_length (s : State) (b : Buffer) (i n : Nat) :
    (s.bytes b i n).length = n := by simp [State.bytes]

@[simp] theorem State.bytes_getElem (s : State) (b : Buffer) (i n k : Nat)
    (h : k < (s.bytes b i n).length) : (s.bytes b i n)[k] = s.byte b (i + k) := by
  simp [State.bytes]

theorem State.bytes_congr {s t : State} {b : Buffer} {i n : Nat}
    (h : ∀ k < n, s.byte b (i + k) = t.byte b (i + k)) : s.bytes b i n = t.bytes b i n :=
  List.ext_getElem (by simp) fun k hk _ => by simpa using h k (by simpa using hk)

/-- Reading back what was just written gives it. -/
theorem State.bytes_put_same (s : State) (b : Buffer) (i : Nat) (vs : List Byte) :
    (s.put b i vs).bytes b i vs.length = vs :=
  List.ext_getElem (by simp) fun k hk hk' => by
    rw [State.bytes_getElem, State.byte_put_at s b i vs k hk']

/-- A write elsewhere leaves a range of bytes as it was. -/
theorem State.bytes_put_other (s : State) {b x : Buffer} (i : Nat) (vs : List Byte) (j n : Nat)
    (h : x ≠ b ∨ j + n ≤ i ∨ i + vs.length ≤ j) : (s.put b i vs).bytes x j n = s.bytes x j n :=
  State.bytes_congr fun k hk => State.byte_put_outside s b i vs fun hb => by
    rcases h with h | h | h
    · exact h hb.1
    · omega
    · omega

@[simp] theorem State.message_length (s : State) : s.message.length = s.msgLen.toNat := by
  simp [State.message]

/-! ### The cipher and the frame's parts -/

@[simp] theorem xorBytes_length (s : List Byte) (k : Byte) : (xorBytes s k).length = s.length := by
  simp [xorBytes]

@[simp] theorem xorBytes_getElem (s : List Byte) (k : Byte) (i : Nat)
    (h : i < (xorBytes s k).length) :
    (xorBytes s k)[i] = s[i]'(by simpa using h) ^^^ k := by simp [xorBytes]

@[simp] theorem frameHeader_length (k1 : Byte) (n : Half) : (frameHeader k1 n).length = 3 := rfl

@[simp] theorem frameTrailer_length (c : Half) (k2 : Byte) (n : Half) :
    (frameTrailer c k2 n).length = 5 := rfl

/-! ### Ends of a command -/

theorem fail_eq (c : Code) (s : State) : fail c s = .next (s.status c) := rfl

theorem done_eq (s : State) : done s = .next (s.status .ok) := rfl

theorem failDecode_eq (c : Code) (s : State) :
    failDecode c s =
      .next { s with
        msgLen := 0#16, xor1 := 0#8, xor2 := 0#8, crc := 0#16, code := c.bits,
        sticky := stickyAfter s.sticky c } := rfl

end Sys2Proof.Machine
end

