-- ==== Sys2Proof/Laws/Exec.lean ====
section
/-! SUPPORT. One lemma for each command: everything it can do, its tests included. -/

namespace Sys2Proof.Machine

open Sys2Proof

/-- A command that makes one test ends in one of two ways. -/
theorem oneTest_cases {p : Bool} {c : Code} {s u t : State}
    (h : (if p then fail c s else done u) = .next t) :
    (p = true ∧ t = s.status c) ∨ (p = false ∧ t = u.status .ok) := by
  cases p
  · exact .inr ⟨rfl, (Host.Outcome.next.inj h).symm⟩
  · exact .inl ⟨rfl, (Host.Outcome.next.inj h).symm⟩

/-- A Message length within `MSG_CAP` survives being held in 16 bits. -/
theorem halfOperand_toNat_of_le {s : State} {len : Nat} (h : len ≤ s.cap.toNat) :
    (halfOperand len).toNat = len := by
  have := s.cap.isLt
  rw [halfOperand, BitVec.toNat_ofNat, Nat.mod_eq_of_lt (by omega)]

/-- A frame length within `FRM_CAP` survives being held in 24 bits. -/
theorem longOperand_toNat_of_le {s : State} {len : Nat} (h : len ≤ s.cap.toNat + 8) :
    (longOperand len).toNat = len := by
  have := s.cap.isLt
  rw [longOperand, BitVec.toNat_ofNat, Nat.mod_eq_of_lt (by omega)]

theorem execMsgCreate_cases {len : Nat} {s t : State} (h : execMsgCreate len s = .next t) :
    (s.cap.toNat < len ∧ t = s.status .lengthOverflow) ∨
    (len ≤ s.cap.toNat ∧
      t = ((s.put .msg 0 (List.replicate len 0#8)).setMsgLen (halfOperand len)).status .ok) := by
  simpa only [State.overflows_iff, State.overflows_eq_false, State.capacity_msg] using oneTest_cases h

theorem execMsgWrap_cases {len : Nat} {s t : State} (h : execMsgWrap len s = .next t) :
    (s.cap.toNat < len ∧ t = s.status .lengthOverflow) ∨
    (len ≤ s.cap.toNat ∧ t = (s.setMsgLen (halfOperand len)).status .ok) := by
  simpa only [State.overflows_iff, State.overflows_eq_false, State.capacity_msg] using oneTest_cases h

theorem execFrmWrap_cases {len : Nat} {s t : State} (h : execFrmWrap len s = .next t) :
    (s.cap.toNat + 8 < len ∧ t = s.status .lengthOverflow) ∨
    (len ≤ s.cap.toNat + 8 ∧ t = (s.setFrmLen (longOperand len)).status .ok) := by
  simpa only [State.overflows_iff, State.overflows_eq_false, State.capacity_frm] using oneTest_cases h

theorem execSetU8_cases {off val : Nat} {s t : State} (h : execSetU8 off val s = .next t) :
    (s.msgLen.toNat ≤ off ∧ t = s.status .outOfRange) ∨
    (off < s.msgLen.toNat ∧ t = (s.put .msg off [byteOperand val]).status .ok) := by
  simpa only [State.outOfRange8_iff, State.outOfRange8_eq_false] using oneTest_cases h

theorem execGetU8_cases {off : Nat} {s t : State} (h : execGetU8 off s = .next t) :
    (s.msgLen.toNat ≤ off ∧ t = s.status .outOfRange) ∨
    (off < s.msgLen.toNat ∧ t = (s.setData ((s.byte .msg off).setWidth 16)).status .ok) := by
  simpa only [State.outOfRange8_iff, State.outOfRange8_eq_false] using oneTest_cases h

theorem execSetU16_cases {off : Nat} {s t : State} (h : execSetU16 off s = .next t) :
    (s.msgLen.toNat ≤ off + 1 ∧ t = s.status .outOfRange) ∨
    (off + 1 < s.msgLen.toNat ∧ t = (s.put .msg off (bigEndian s.data)).status .ok) := by
  simpa only [State.outOfRange16_iff, State.outOfRange16_eq_false] using oneTest_cases h

theorem execGetU16_cases {off : Nat} {s t : State} (h : execGetU16 off s = .next t) :
    (s.msgLen.toNat ≤ off + 1 ∧ t = s.status .outOfRange) ∨
    (off + 1 < s.msgLen.toNat ∧ t = (s.setData (s.half .msg off)).status .ok) := by
  simpa only [State.outOfRange16_iff, State.outOfRange16_eq_false] using oneTest_cases h

theorem execSetStr_cases {off : Nat} {s t : State} (h : execSetStr off s = .next t) :
    (s.msgLen.toNat ≤ off + s.count.toNat ∧ t = s.status .outOfRange) ∨
    (off + s.count.toNat < s.msgLen.toNat ∧
      t = (s.put .msg off (s.bytes .str 0 s.count.toNat)).status .ok) := by
  simpa only [State.outOfRangeStr_iff, State.outOfRangeStr_eq_false] using oneTest_cases h

theorem execGetStr_cases {off : Nat} {s t : State} (h : execGetStr off s = .next t) :
    (s.msgLen.toNat ≤ off + s.count.toNat ∧ t = s.status .outOfRange) ∨
    (off + s.count.toNat < s.msgLen.toNat ∧
      t = (s.put .str 0 (s.bytes .msg off s.count.toNat)).status .ok) := by
  simpa only [State.outOfRangeStr_iff, State.outOfRangeStr_eq_false] using oneTest_cases h

theorem execCrc16_eq (s : State) :
    execCrc16 s = .next ((s.setCrc (crc16 s.message)).status .ok) := rfl

theorem execXorBytes_eq (key : Nat) (s : State) :
    execXorBytes key s =
      .next ((s.put .msg 0 (xorBytes s.message (byteOperand key))).status .ok) := rfl

/-- DECODE fails at its first test, fails at its second, or returns the body, the keys and the CRC. -/
theorem execDecodeFrame_cases {s t : State} (h : execDecodeFrame s = .next t) :
    (s.frmLen.toNat < 8 ∧ failDecode .malformedFrame s = .next t) ∨
    (8 ≤ s.frmLen.toNat ∧ s.frmLen.toNat - 8 < s.frameBodyLen.toNat ∧
      failDecode .truncatedFrame s = .next t) ∨
    (8 ≤ s.frmLen.toNat ∧ s.frameBodyLen.toNat ≤ s.frmLen.toNat - 8 ∧
      t = ((((((s.put .frm 3 s.frameBody).put .msg 0 s.frameBody).setMsgLen
        s.frameBodyLen).setXor1 (s.byte .frm 0)).setXor2 s.frameKey2).setCrc
        s.frameCrc).status .ok) := by
  unfold execDecodeFrame at h
  cases hs : s.frameShort
  · rw [State.frameShort_eq_false] at hs
    cases hb : s.bodyTooLong s.frameBodyLen <;>
      simp only [(State.frameShort_eq_false s).2 hs, hb] at h
    · exact .inr (.inr ⟨hs, (State.bodyTooLong_eq_false ..).1 hb, (Host.Outcome.next.inj h).symm⟩)
    · exact .inr (.inl ⟨hs, (State.bodyTooLong_iff ..).1 hb, h⟩)
  · simp only [hs] at h
    exact .inl ⟨(State.frameShort_iff s).1 hs, h⟩

end Sys2Proof.Machine
end

