-- ==== Sys2Proof/Laws/HostPort.lean ====
section
/-! SUPPORT. What each update of the state does to the registers as the host reads them, when a
command has ended with OK, and what one step is. -/

namespace Sys2Proof.Machine

open Sys2Proof

/-! ### Registers as the host reads them -/

@[simp] theorem State.put_readReg (s : State) (b : Buffer) (i : Nat) (vs : List Byte) (r : Reg) :
    (s.put b i vs).readReg r = s.readReg r := by cases r <;> simp [State.readReg]

theorem State.status_readReg (s : State) (c : Code) {r : Reg} (h : r ≠ .status) :
    (s.status c).readReg r = s.readReg r := by cases r <;> first | rfl | exact absurd rfl h

theorem State.setMsgLen_readReg (s : State) (v : Half) {r : Reg} (h : r ≠ .msgLen) :
    (s.setMsgLen v).readReg r = s.readReg r := by cases r <;> first | rfl | exact absurd rfl h

theorem State.setFrmLen_readReg (s : State) (v : Long) {r : Reg} (h : r ≠ .frmLen) :
    (s.setFrmLen v).readReg r = s.readReg r := by cases r <;> first | rfl | exact absurd rfl h

theorem State.setData_readReg (s : State) (v : Half) {r : Reg} (h : r ≠ .data) :
    (s.setData v).readReg r = s.readReg r := by cases r <;> first | rfl | exact absurd rfl h

theorem State.setXor1_readReg (s : State) (v : Byte) {r : Reg} (h : r ≠ .xor1) :
    (s.setXor1 v).readReg r = s.readReg r := by cases r <;> first | rfl | exact absurd rfl h

theorem State.setXor2_readReg (s : State) (v : Byte) {r : Reg} (h : r ≠ .xor2) :
    (s.setXor2 v).readReg r = s.readReg r := by cases r <;> first | rfl | exact absurd rfl h

theorem State.setCrc_readReg (s : State) (v : Half) {r : Reg} (h : r ≠ .crc) :
    (s.setCrc v).readReg r = s.readReg r := by cases r <;> first | rfl | exact absurd rfl h

/-- A command that reaches `status(OK)` in state `u` has ended with OK, if `u` differs from the start
in the registers `written` and in buffer bytes only. -/
theorem EndedOk.of_status {written : List Reg} {s u : State} (sticky : u.sticky = s.sticky)
    (registers : ∀ r, r ∉ written → r ≠ .status → u.readReg r = s.readReg r)
    (epoch : u.epoch = s.epoch) (pending : u.pending = s.pending)
    (returned : u.returned = s.returned) : EndedOk written s (u.status .ok) where
  code := rfl
  sticky := sticky
  registers r hr hs := by rw [State.status_readReg u .ok hs, registers r hr hs]
  epoch := epoch
  pending := pending
  returned := returned

/-! ### One step -/

theorem step_nil {s : State} (h : s.pending = []) : step s = .next s := by
  simp only [step, advance, State.takeStimulus, h]

/-- A step takes the first stimulus, which acts on the state whose list has moved on by one. -/
theorem step_cons {s : State} {a : Stimulus} {rest : List Stimulus} (h : s.pending = a :: rest) :
    step s = stimulate a { s with pending := rest } := by
  simp only [step, advance, State.takeStimulus, h]

/-- A legal word issued to CMD is the command it stands for. -/
theorem issue_ok {w : Word} {i : Instr} (h : decode w = .ok i) (s : State) :
    issue w s = exec i s := by simp only [issue, h]

/-- An illegal word issued to CMD only reports ILLEGAL_COMMAND (R162). -/
theorem issue_error {w : Word} {e : IllegalWord} (h : decode w = .error e) (s : State) :
    issue w s = .next (s.status .illegalCommand) := by simp only [issue, h, fail_eq]

/-- The word `withFetchWord` places is the next stimulus. -/
theorem step_withFetchWord (s : State) (nbits w : Nat) :
    step (s.withFetchWord nbits w) = issue (BitVec.ofNat 32 (w % 2 ^ nbits)) s := rfl

/-! ### The address map -/

/-- An access that reaches a register is an aligned 32-bit one at the register's offset (R54). -/
theorem registerAt_inv {addr : Nat} {width : Width} {r : Reg} (h : registerAt addr width = some r) :
    width = .w32 ∧ addr = r.offset := by
  cases width with
  | w32 =>
    simp only [registerAt] at h
    exact ⟨rfl, (by simpa using List.find?_some h : r.offset = addr).symm⟩
  | w8 => cases h
  | w16 => cases h

/-- An aligned 32-bit access at a register's offset reaches it (R54). -/
theorem registerAt_offset (r : Reg) : registerAt r.offset .w32 = some r := by cases r <;> rfl

/-- Every register lies at a multiple of 4 below 0x28 (R20). -/
theorem Reg.offset_range (r : Reg) : r.offset < 0x28 ∧ r.offset % 4 = 0 := by cases r <;> decide

/-- An access that is narrow, misaligned or beyond the registers reaches none (R54). -/
theorem registerAt_eq_none {addr : Nat} {width : Width}
    (h : width ≠ .w32 ∨ addr % 4 ≠ 0 ∨ 0x28 ≤ addr) : registerAt addr width = none := by
  cases hr : registerAt addr width with
  | none => rfl
  | some r =>
    obtain ⟨hw, ha⟩ := registerAt_inv hr
    have := r.offset_range
    subst ha
    rcases h with h | h | h
    · exact absurd hw h
    · omega
    · omega

/-- Addresses outside the three windows lie in none (R54). -/
theorem windowAt_eq_none {addr : Nat}
    (h : addr < 0x10000 ∨ (0x30000 ≤ addr ∧ addr < 0x40000) ∨ 0x60000 ≤ addr) :
    windowAt addr = none := by
  unfold windowAt
  rw [if_neg (by omega), if_neg (by omega), if_neg (by omega)]

end Sys2Proof.Machine
end

