-- ==== Sys2Proof/Laws/PerInstr.lean ====
section
/-! SUPPORT. Statements for all commands, one lemma for each constructor of `Instr`. -/

namespace Sys2Proof.Laws.RowMatch

open Sys2Proof

/-- The word of a well-formed command selects the command's own row of the opcode map:
`(w & mask) == match` (R71). -/
def Statement (i : Instr) : Prop := i.wellFormed = true → i.row.selectedBy (encode i) = true

/-- Bits above field A are 0 in a value that fits A, shifted to its place. -/
theorem fieldA_and (n : Nat) (h : fitsA n = true) :
    (BitVec.ofNat 32 n <<< 8) &&& 0xFF0000FF#32 = 0#32 := by
  have hn : n < 2 ^ 16 := by simp only [fitsA, decide_eq_true_eq] at h; omega
  ext i hi
  simp only [BitVec.getElem_and, BitVec.getElem_shiftLeft, BitVec.getElem_zero]
  rcases Nat.lt_or_ge i 8 with h8 | h8
  · simp [h8]
  · rcases Nat.lt_or_ge i 24 with h24 | h24
    · have gap : ∀ i < 24, 8 ≤ i → (0xFF0000FF#32 : Word).getLsbD i = false := by decide
      simp [← BitVec.getLsbD_eq_getElem, gap i h24 h8]
    · have : n.testBit (i - 8) = false :=
        Nat.testBit_lt_two_pow (Nat.lt_of_lt_of_le hn (Nat.pow_le_pow_right (by omega) (by omega)))
      simp [← BitVec.getLsbD_eq_getElem, BitVec.getLsbD_ofNat, this]

/-- Bits above a field of `k` bits are 0 in a value below `2 ^ k`. -/
theorem small_and (n k : Nat) (m : Word) (hn : n < 2 ^ k)
    (hm : ∀ i < k, m.getLsbD i = false) : BitVec.ofNat 32 n &&& m = 0#32 := by
  ext i hi
  rcases Nat.lt_or_ge i k with h | h
  · simp [← BitVec.getLsbD_eq_getElem, hm i h]
  · have : n.testBit i = false :=
      Nat.testBit_lt_two_pow (Nat.lt_of_lt_of_le hn (Nat.pow_le_pow_right (by omega) h))
    simp [← BitVec.getLsbD_eq_getElem, BitVec.getLsbD_ofNat, this]

theorem formatA (opc : Word) (n : Nat) (h : fitsA n = true) (ho : opc &&& 0xFF0000FF#32 = opc) :
    OpcodeRow.selectedBy ⟨opc, 0xFF0000FF#32⟩ (opc ||| (BitVec.ofNat 32 n <<< 8)) = true := by
  simp [OpcodeRow.selectedBy, BitVec.and_or_distrib_right, fieldA_and n h, ho]

theorem msgCreate (len : Nat) : Statement (.msgCreate len) := fun h => formatA _ len h (by decide)

theorem msgWrap (len : Nat) : Statement (.msgWrap len) := fun h => formatA _ len h (by decide)

theorem setU8 (off val : Nat) : Statement (.setU8 off val) := fun h => by
  obtain ⟨ha, hb⟩ := Bool.and_eq_true_iff.1 (show (fitsA off && fitsB val) = true from h)
  have hb : val < 2 ^ 8 := by simp only [fitsB, decide_eq_true_eq] at hb; omega
  have h1 : (BitVec.ofNat 32 off <<< 8) &&& 0xFF000000#32 = 0#32 := by
    have hm : (0xFF000000#32 : Word) = 0xFF0000FF#32 &&& 0xFF000000#32 := by decide
    rw [hm, ← BitVec.and_assoc, fieldA_and off ha, BitVec.zero_and]
  have h2 : BitVec.ofNat 32 val &&& 0xFF000000#32 = 0#32 :=
    small_and val 8 _ hb (by decide)
  simp [OpcodeRow.selectedBy, Instr.row, encode, BitVec.and_or_distrib_right, h1, h2]

theorem getU8 (off : Nat) : Statement (.getU8 off) := fun h => formatA _ off h (by decide)

theorem setU16 (off : Nat) : Statement (.setU16 off) := fun h => formatA _ off h (by decide)

theorem getU16 (off : Nat) : Statement (.getU16 off) := fun h => formatA _ off h (by decide)

theorem setStr (off : Nat) : Statement (.setStr off) := fun h => formatA _ off h (by decide)

theorem getStr (off : Nat) : Statement (.getStr off) := fun h => formatA _ off h (by decide)

theorem crc16 : Statement .crc16 := fun _ => by decide

theorem xorBytes (key : Nat) : Statement (.xorBytes key) := fun h => by
  have hk : key < 2 ^ 8 := by
    simp only [Instr.wellFormed, fitsB, decide_eq_true_eq] at h; omega
  have h2 : BitVec.ofNat 32 key &&& 0xFFFFFF00#32 = 0#32 :=
    small_and key 8 _ hk (by decide)
  simp [OpcodeRow.selectedBy, Instr.row, encode, BitVec.and_or_distrib_right, h2]

theorem encodeFrame : Statement .encodeFrame := fun _ => by decide

theorem frmWrap (len : Nat) : Statement (.frmWrap len) := fun h => by
  have hl : len < 2 ^ 24 := by
    simp only [Instr.wellFormed, fitsL, decide_eq_true_eq] at h; omega
  have h2 : BitVec.ofNat 32 len &&& 0xFF000000#32 = 0#32 :=
    small_and len 24 _ hl (by decide)
  simp [OpcodeRow.selectedBy, Instr.row, encode, BitVec.and_or_distrib_right, h2]

theorem decodeFrame : Statement .decodeFrame := fun _ => by decide

end Sys2Proof.Laws.RowMatch
end

