-- ==== Sys2Proof/Tests/Slice0.lean ====
section
/-! SUPPORT. Small tests, their expected values taken from spec/95_test_vectors.md and the rules, and
one witness for each statement that has hypotheses. -/

namespace Sys2Proof.Tests

open Sys2Proof Sys2Proof.Machine

/-! ### Well-formedness: one ill-formed command for each check (R76) -/

theorem test_wellFormed_refuses_wide_offset :
    Instr.wellFormed (.getU8 65536) = false ∧ Instr.wellFormed (.getU8 65535) = true := by decide

theorem test_wellFormed_refuses_wide_length :
    Instr.wellFormed (.msgCreate 65536) = false ∧ Instr.wellFormed (.msgWrap 65536) = false := by
  decide

theorem test_wellFormed_refuses_wide_value :
    Instr.wellFormed (.setU8 0 256) = false ∧ Instr.wellFormed (.setU8 65536 0) = false ∧
    Instr.wellFormed (.setU8 65535 255) = true := by decide

theorem test_wellFormed_refuses_wide_key :
    Instr.wellFormed (.xorBytes 256) = false ∧ Instr.wellFormed (.xorBytes 255) = true := by decide

theorem test_wellFormed_refuses_wide_frame_length :
    Instr.wellFormed (.frmWrap 16777216) = false ∧ Instr.wellFormed (.frmWrap 16777215) = true := by
  decide

/-! ### Decoding: a word written out from R66 and R71 for every command: OPC, then A and B, or L -/

theorem test_decode_msgCreate :
    decode (0x01#8 ++ 0x0004#16 ++ 0x00#8) = .ok (.msgCreate 4) := by rfl
theorem test_decode_msgWrap :
    decode (0x02#8 ++ 0xFFFF#16 ++ 0x00#8) = .ok (.msgWrap 65535) := by rfl
theorem test_decode_setU8 :
    decode (0x10#8 ++ 0x0102#16 ++ 0x7F#8) = .ok (.setU8 258 127) := by rfl
theorem test_decode_getU8 : decode (0x11#8 ++ 0x8001#16 ++ 0x00#8) = .ok (.getU8 32769) := by rfl
theorem test_decode_setU16 : decode (0x12#8 ++ 0x0100#16 ++ 0x00#8) = .ok (.setU16 256) := by rfl
theorem test_decode_getU16 : decode (0x13#8 ++ 0x0002#16 ++ 0x00#8) = .ok (.getU16 2) := by rfl
theorem test_decode_setStr : decode (0x14#8 ++ 0x0001#16 ++ 0x00#8) = .ok (.setStr 1) := by rfl
theorem test_decode_getStr : decode (0x15#8 ++ 0x1234#16 ++ 0x00#8) = .ok (.getStr 4660) := by rfl
theorem test_decode_crc16 : decode (0x20#8 ++ 0x0000#16 ++ 0x00#8) = .ok .crc16 := by rfl
theorem test_decode_xorBytes : decode (0x21#8 ++ 0x0000#16 ++ 0x5A#8) = .ok (.xorBytes 90) := by rfl
theorem test_decode_encode : decode (0x30#8 ++ 0x0000#16 ++ 0x00#8) = .ok .encodeFrame := by rfl
theorem test_decode_frmWrap : decode (0x31#8 ++ 0x010007#24) = .ok (.frmWrap 65543) := by rfl
theorem test_decode_decode : decode (0x32#8 ++ 0x000000#24) = .ok .decodeFrame := by rfl

/-- V-ILL: the illegal words, each with its reason (R72, R73). -/
theorem test_decode_refuses_by_name :
    decode 0x00000000#32 = .error (.unassignedOpcode 0x00#8) ∧
    decode 0x16000000#32 = .error (.unassignedOpcode 0x16#8) ∧
    decode 0xFF000000#32 = .error (.unassignedOpcode 0xFF#8) ∧
    decode 0x30000001#32 = .error (.nonzeroMustBeZero 0x30000001#32) ∧
    decode 0x32000100#32 = .error (.nonzeroMustBeZero 0x32000100#32) := ⟨rfl, rfl, rfl, rfl, rfl⟩

theorem test_decodeTableWord :
    decodeTableWord 32 0x100003AB = some (.setU8 3 0xAB) ∧ decodeTableWord 32 0 = none :=
  ⟨rfl, rfl⟩

/-! ### Helpers: small states, and what a result shows -/

/-- A block after reset whose Message is `bs`. -/
def withMessage (bs : List Byte) : State :=
  { State.reset with msg := Memory.cells 0 bs, msgLen := BitVec.ofNat 16 bs.length }

/-- A block after reset whose frame is `bs`. -/
def withFrame (bs : List Byte) : State :=
  { State.reset with frm := Memory.cells 0 bs, frmLen := BitVec.ofNat 24 bs.length }

/-- What `f` sees in the next state. -/
def after {α : Type} (r : Result) (f : State → α) : Option α :=
  match r with
  | .next s => some (f s)
  | .fault _ => none
  | .refused _ => none

/-- STATUS as 95_test_vectors.md shows it. -/
def shown (s : State) : Byte := statusByte s.sticky s.code

/-- "123456789" in ASCII. -/
def digits : List Byte := [0x31#8, 0x32#8, 0x33#8, 0x34#8, 0x35#8, 0x36#8, 0x37#8, 0x38#8, 0x39#8]

/-- The frame of V-ENC1. -/
def frame1 : List Byte :=
  [0x5A#8, 0x00#8, 0x02#8, 0x02#8, 0x23#8, 0xB5#8, 0x4C#8, 0xA5#8, 0xA7#8, 0x00#8]

/-- The frame of V-DEC9. -/
def frame9 : List Byte :=
  [0x11#8, 0x00#8, 0x02#8, 0xAA#8, 0xBB#8, 0xCC#8, 0xDD#8, 0xEE#8, 0xFF#8, 0x00#8]

/-- A block after reset with `MSG_CAP` = 16. -/
def small : State := State.resetWith 16#16

/-! ### The commands -/

/-- V-BUF1, V-BUF22: the new Message is zero, and bytes beyond it stay. -/
theorem test_msgCreate :
    after (exec (.msgCreate 2) (withMessage [0x48#8, 0x69#8, 0x77#8]))
      (fun t => (t.msg, t.msgLen, shown t)) =
      some (Memory.cells 0 [0x00#8, 0x00#8, 0x77#8], 2#16, 0x00#8) := by decide

/-- V-BUF24. -/
theorem test_msgCreate_overflow :
    exec (.msgCreate 17) small = .next (small.failedWith 4#4) := by rfl

/-- V-BUF25. -/
theorem test_msgWrap_at_capacity :
    after (exec (.msgWrap 16) small) (fun t => (t.msgLen, shown t)) = some (16#16, 0x00#8) := by
  decide

theorem test_msgWrap_overflow : exec (.msgWrap 17) small = .next (small.failedWith 4#4) := by rfl

/-- V-BUF2. -/
theorem test_setU8 :
    after (exec (.setU8 3 0xAB) (withMessage [0x00#8, 0x00#8, 0x00#8, 0x00#8]))
      (fun t => (t.msg, shown t)) =
      some (Memory.cells 0 [0x00#8, 0x00#8, 0x00#8, 0xAB#8], 0x00#8) := by decide

/-- V-BUF3 (E2). -/
theorem test_setU8_out_of_range :
    exec (.setU8 4 0xCD) (withMessage [0x00#8, 0x00#8, 0x00#8, 0xAB#8]) =
      .next ((withMessage [0x00#8, 0x00#8, 0x00#8, 0xAB#8]).failedWith 1#4) := by rfl

/-- V-BUF6, with STICKY kept. -/
theorem test_getU8 :
    after (exec (.getU8 3) ((withMessage [0x00#8, 0x00#8, 0x00#8, 0xAB#8]).failedWith 1#4))
      (fun t => (t.data, shown t)) = some (0x00AB#16, 0x80#8) := by decide

/-- V-BUF15: no offset is inside an empty Message. -/
theorem test_getU8_of_empty_message :
    exec (.getU8 0) (withMessage []) = .next ((withMessage []).failedWith 1#4) := by rfl

/-- V-BUF17: an odd offset and the last place that fits. -/
theorem test_setU16 :
    after (exec (.setU16 1) ((withMessage [0x00#8, 0x00#8, 0x00#8]).setData 0xBEEF#16))
      (fun t => (t.msg, shown t)) =
      some (Memory.cells 0 [0x00#8, 0xBE#8, 0xEF#8], 0x00#8) := by decide

/-- V-BUF19: the bounds sum does not wrap. -/
theorem test_setU16_no_wrap :
    exec (.setU16 0xFFFF) (withMessage [0x00#8, 0xBE#8, 0xEF#8]) =
      .next ((withMessage [0x00#8, 0xBE#8, 0xEF#8]).failedWith 1#4) := by rfl

/-- V-BUF18. -/
theorem test_getU16 :
    after (exec (.getU16 0) (withMessage [0x00#8, 0xBE#8, 0xEF#8]))
      (fun t => (t.data, shown t)) = some (0x00BE#16, 0x00#8) := by decide

/-- V-BUF5 (E3). -/
theorem test_getU16_out_of_range :
    exec (.getU16 3) (withMessage [0x00#8, 0x00#8, 0x00#8, 0xAB#8]) =
      .next ((withMessage [0x00#8, 0x00#8, 0x00#8, 0xAB#8]).failedWith 1#4) := by rfl

/-- V-BUF9. -/
theorem test_setStr :
    after (exec (.setStr 0)
      { withMessage [0x00#8, 0x00#8, 0x00#8, 0x00#8, 0x00#8] with
        str := Memory.cells 0 [0x61#8, 0x62#8, 0x63#8, 0x64#8, 0x65#8], count := 4#16 })
      (fun t => (t.msg, shown t)) =
      some (Memory.cells 0 [0x61#8, 0x62#8, 0x63#8, 0x64#8, 0x00#8], 0x00#8) := by decide

/-- V-BUF8 (E4): a string that would end with the Message's last byte is refused. -/
theorem test_setStr_one_byte_strict :
    after (exec (.setStr 0) ((withMessage [0x00#8, 0x00#8, 0x00#8, 0x00#8, 0x00#8]).setCount 5#16))
      (fun t => (t.msg, shown t)) =
      some (Memory.cells 0 [0x00#8, 0x00#8, 0x00#8, 0x00#8, 0x00#8], 0x81#8) := by decide

/-- V-BUF13. -/
theorem test_getStr :
    after (exec (.getStr 1)
      ((withMessage [0x61#8, 0x62#8, 0x63#8, 0x64#8, 0x00#8]).setCount 3#16))
      (fun t => (t.str, shown t)) =
      some (Memory.cells 0 [0x62#8, 0x63#8, 0x64#8], 0x00#8) := by decide

/-- V-BUF14. -/
theorem test_getStr_out_of_range :
    after (exec (.getStr 1)
      ((withMessage [0x61#8, 0x62#8, 0x63#8, 0x64#8, 0x00#8]).setCount 4#16))
      (fun t => (t.str, shown t)) = some ([], 0x81#8) := by decide

/-- V-CRCCMD1 (E1). -/
theorem test_crc16 :
    after (exec .crc16 (withMessage digits)) (fun t => (t.crc, shown t)) =
      some (0x4B37#16, 0x00#8) := by decide +kernel

/-- V-CRCCMD2. -/
theorem test_crc16_of_empty_message :
    after (exec .crc16 (withMessage [])) (fun t => t.crc) = some 0xFFFF#16 := by decide

/-- V-XOR1. -/
theorem test_xorBytes :
    after (exec (.xorBytes 0x5A) (withMessage digits)) (fun t => (t.msg, shown t)) =
      some (Memory.cells 0
        [0x6B#8, 0x68#8, 0x69#8, 0x6E#8, 0x6F#8, 0x6C#8, 0x6D#8, 0x62#8, 0x63#8], 0x00#8) := by
  decide +kernel

/-- V-XOR5. -/
theorem test_xorBytes_of_empty_message :
    after (exec (.xorBytes 0x77) (withMessage [])) (fun t => t.msg) = some [] := by decide

/-- V-ENC1. -/
theorem test_encode :
    after (exec .encodeFrame
      { withMessage [0x48#8, 0x69#8] with xor1 := 0x5A#8, xor2 := 0xA5#8 })
      (fun t => (t.frm, t.frmLen, t.crc, t.msg)) =
      some (Memory.cells 0 frame1, 10#24, 0xB54C#16, Memory.cells 0 [0x02#8, 0x23#8]) := by
  decide +kernel

/-- V-ENC2. -/
theorem test_encode_empty_message :
    after (exec .encodeFrame { withMessage [] with xor1 := 0x5A#8, xor2 := 0xA5#8 })
      (fun t => (t.frm, t.frmLen)) =
      some (Memory.cells 0 [0x5A#8, 0x00#8, 0x00#8, 0xFF#8, 0xFF#8, 0xA5#8, 0xA5#8, 0x00#8],
        8#24) := by decide +kernel

/-- V-FW1, V-FW2. -/
theorem test_frmWrap :
    after (exec (.frmWrap 65543) State.reset) (fun t => (t.frmLen, shown t)) =
      some (65543#24, 0x00#8) ∧
    exec (.frmWrap 65544) State.reset = .next (State.reset.failedWith 4#4) := ⟨by decide, rfl⟩

/-- V-FW4, V-FW5. -/
theorem test_frmWrap_small :
    after (exec (.frmWrap 24) small) (fun t => (t.frmLen, shown t)) = some (24#24, 0x00#8) ∧
    exec (.frmWrap 25) small = .next (small.failedWith 4#4) := ⟨by decide, rfl⟩

/-- V-DEC9: a body, keys and CRC that differ from one another, deciphered in FRM too. -/
theorem test_decode_frame :
    after (exec .decodeFrame (withFrame frame9)) (fun t => (t.msg, t.frm)) =
      some (Memory.cells 0 [0x8A#8, 0x9B#8], Memory.cells 0
        [0x11#8, 0x00#8, 0x02#8, 0x8A#8, 0x9B#8, 0xCC#8, 0xDD#8, 0xEE#8, 0xFF#8, 0x00#8]) ∧
    after (exec .decodeFrame (withFrame frame9)) (fun t => (t.msgLen, t.xor1, t.xor2, t.crc)) =
      some (2#16, 0x11#8, 0xFD#8, 0xCCDD#16) := by decide +kernel

/-- V-DEC7: the body does not fit the frame. -/
theorem test_decode_truncated :
    after (exec .decodeFrame { withFrame
      [0x11#8, 0x00#8, 0x02#8, 0xAA#8, 0xBB#8, 0xCC#8, 0xDD#8, 0xEE#8, 0xFF#8] with
        msgLen := 5#16, xor1 := 1#8, xor2 := 2#8, crc := 3#16 })
      (fun t => (t.msgLen, t.xor1, t.xor2, t.crc, shown t)) =
      some (0#16, 0x00#8, 0x00#8, 0x0000#16, 0x83#8) := by decide +kernel

/-! ### The host and the step -/

/-- V-HOST: register writes. -/
theorem test_register_writes :
    after (hostAction (.wr .xor1 0x1234#32) State.reset) (fun t => t.xor1) = some 0x34#8 ∧
    after (hostAction (.wr .data 0xABCD1234#32) State.reset) (fun t => t.data) = some 0x1234#16 ∧
    hostAction (.wr .msgLen 5#32) State.reset = .next State.reset ∧
    after (hostAction (.wr .status 0x7F#32) (State.reset.failedWith 1#4)) shown = some 0x81#8 ∧
    after (hostAction (.wr .status 0x80#32) (State.reset.failedWith 1#4)) shown = some 0x01#8 :=
  ⟨by decide, by decide, rfl, by decide, by decide⟩

/-- V-HOST: reads, and buffer accesses at the capacity. -/
theorem test_reads_and_capacities :
    State.reset.readReg .cmd = 0#32 ∧ State.reset.readReg .cap = 0x0000FFFF#32 ∧
    hostAction (.bw .frm 65543 0x12#8) State.reset = .next State.reset ∧
    after (hostAction (.br .msg 65535) State.reset) (fun t => t.returned) = some [0#32] :=
  ⟨by decide, by decide, rfl, by decide⟩

/-- R54: the FRM window at 0x40000, and an access that the map does not state. -/
theorem test_port :
    after (portAccess (.write 0x40005#19 .w8 0xAB#32) State.reset) (fun t => t.frm) =
      some [(5, 0xAB#8)] ∧
    portAccess (.write 0x10000#19 .w32 0#32) State.reset = .refused .widePortAccessToBuffer :=
  ⟨by decide, rfl⟩

/-- A step runs the placed word as the first command after reset (V-BUF1). -/
theorem test_step_withFetchWord :
    after (step (State.reset.withFetchWord 32 0x01000400)) (fun t => (t.msgLen, t.pending)) =
      some (4#16, []) := by decide

/-- The expansion of `setkeys` and `clrsticky`, and of a command line (R77). -/
theorem test_assembler :
    program [.setKeys 0x12#8 0x34#8, .instr .encodeFrame, .clrSticky] =
      some [.wr .xor1 0x12#32, .wr .xor2 0x34#32, .wr .cmd 0x30000000#32,
        .wr .status 0x80#32] ∧
    program [.msgLoad [0x48#8], .strPut 3 "hi"] =
      some [.bw .msg 0 0x48#8, .wr .cmd 0x02000100#32, .bw .str 0 0x68#8, .bw .str 1 0x69#8,
        .wr .count 2#32, .wr .cmd 0x14000300#32] := ⟨by decide, by decide⟩

/-! ### Witnesses: concrete values that meet the hypotheses of each statement -/

theorem witness_DecodeOfEncodeIsTheCommand :
    Instr.wellFormed (.setU8 65535 255) = true ∧ Instr.wellFormed (.frmWrap 16777215) = true := by
  decide

theorem witness_DecodedWordIsTheCommandsOnlyWord :
    decode 0x31FFFFFF#32 = .ok (.frmWrap 16777215) := by rfl

theorem witness_DecoderFollowsTheOpcodeMap :
    decode 0x02FFFF00#32 = .ok (.msgWrap 65535) ∧ Instr.row (.msgWrap 0) ∈ opcodeRows ∧
    0x02FFFF00#32 &&& (Instr.row (.msgWrap 0)).maskWord = (Instr.row (.msgWrap 0)).matchWord :=
  ⟨rfl, by decide, by decide⟩

/-- A state for each of the four ways a word arrives. -/
theorem witness_StepRunsTheDecodedCommand :
    decode 0x30000000#32 = .ok .encodeFrame ∧
    ({ small with pending := [.host (.cmd 0x30000000#32)] } : State).pending =
      .host (.cmd 0x30000000#32) :: [] ∧
    ({ small with pending := [.host (.wr .cmd 0x30000000#32)] } : State).pending =
      .host (.wr .cmd 0x30000000#32) :: [] ∧
    ({ small with pending := [.port (.write 0#19 .w32 0x30000000#32)] } : State).pending =
      .port (.write 0#19 .w32 0x30000000#32) :: [] := ⟨rfl, rfl, rfl, rfl⟩

theorem witness_AssembledLineRunsAsItsCommand :
    assemble (.setU8 65535 255) = some 0x10FFFFFF#32 ∧
    ({ small with pending := [.host (.wr .cmd 0x10FFFFFF#32)] } : State).pending =
      .host (.wr .cmd 0x10FFFFFF#32) :: [] := ⟨rfl, rfl⟩

/-- Both ends of each unassigned range of R72. -/
theorem witness_UnassignedOpcodeOnlyReports :
    ∀ k ∈ [0x00, 0x03, 0x0F, 0x16, 0x1F, 0x22, 0x2F, 0x33, 0xFF],
      ((BitVec.ofNat 8 k ++ 0#24 : BitVec 32).extractLsb' 24 8).toNat = k ∧
      (k = 0x00 ∨ (0x03 ≤ k ∧ k ≤ 0x0F) ∨ (0x16 ≤ k ∧ k ≤ 0x1F) ∨ (0x22 ≤ k ∧ k ≤ 0x2F) ∨
        (0x33 ≤ k ∧ k ≤ 0xFF)) := by decide

/-- The lowest and the highest must-be-0 bit of each format. -/
theorem witness_NonzeroMustBeZeroFieldOnlyReports :
    ((0x15000001#32 : Word).extractLsb' 24 8).toNat = 0x15 ∧
    (0x15000001#32 : Word).extractLsb' 0 8 ≠ 0#8 ∧
    ((0x01000080#32 : Word).extractLsb' 24 8).toNat = 0x01 ∧
    (0x01000080#32 : Word).extractLsb' 0 8 ≠ 0#8 ∧
    ((0x21000100#32 : Word).extractLsb' 24 8).toNat = 0x21 ∧
    (0x21000100#32 : Word).extractLsb' 8 16 ≠ 0#16 ∧
    ((0x32800000#32 : Word).extractLsb' 24 8).toNat = 0x32 ∧
    (0x32800000#32 : Word).extractLsb' 0 24 ≠ 0#24 := by decide

theorem witness_ResetPulseResetsRegistersAndBuffers :
    ({ withFrame frame1 with pending := [.resetPulse] } : State).pending = .resetPulse :: [] := by
  rfl

theorem witness_ResetMeetsTheInvariant : 1 ≤ (1#16 : Half).toNat ∧ 1 ≤ (65535#16 : Half).toNat := by
  decide

theorem witness_RegisterReadReturnsTheRegister :
    ({ small with pending := [.host (.rd .status)] } : State).pending =
      .host (.rd .status) :: [] := by rfl

/-- Each clause, the first and the last address that names no register among them. -/
theorem witness_RegisterWriteActsByRegister :
    (0x80#32 : Word).getLsbD 7 = true ∧ (0x7F#32 : Word).getLsbD 7 = false ∧
    decode 0x20000000#32 = .ok .crc16 ∧
    decode 0x20000001#32 = .error (.nonzeroMustBeZero 0x20000001#32) ∧
    (0x28 ≤ (0x28#19).toNat ∧ (0x28#19).toNat < 0x10000 ∧ (0x28#19).toNat % 4 = 0) ∧
    (0x28 ≤ (0xFFFC#19).toNat ∧ (0xFFFC#19).toNat < 0x10000 ∧ (0xFFFC#19).toNat % 4 = 0) :=
  ⟨by decide, by decide, rfl, rfl, by decide, by decide⟩

theorem witness_HostBufferWriteStoresBelowCapacity :
    23 < Config.capacity small.cap.toNat .frm ∧ Config.capacity small.cap.toNat .frm ≤ 24 ∧
    15 < Config.capacity small.cap.toNat .str ∧ Config.capacity small.cap.toNat .str ≤ 16 := by
  decide

theorem witness_HostBufferReadReturnsTheByte :
    15 < Config.capacity small.cap.toNat .msg ∧ Config.capacity small.cap.toNat .msg ≤ 16 := by
  decide

/-- A pending port access, a register's address, both ends of each window, the first and the last wide
access that touches a window, a narrow and a misaligned access, and both ends of each reserved range,
a misaligned access (32 bits at 0x29) among them. -/
theorem witness_PortReachesWhatTheAddressMapSays :
    ({ small with pending := [.port (.read 0x24#19 .w32)] } : State).pending =
      .port (.read 0x24#19 .w32) :: [] ∧
    (0x24#19).toNat = Reg.offset .cap ∧
    (∀ a ∈ [0x10000#19, 0x1FFFF#19], 0x10000 ≤ a.toNat ∧ a.toNat < 0x10000 + 0x10000) ∧
    (∀ a ∈ [0x20000#19, 0x2FFFF#19], 0x20000 ≤ a.toNat ∧ a.toNat < 0x20000 + 0x10000) ∧
    (∀ a ∈ [0x40000#19, 0x5FFFF#19], 0x40000 ≤ a.toNat ∧ a.toNat < 0x40000 + 0x20000) ∧
    Width.w32 ≠ .w8 ∧
    (∀ a ∈ [0x3FFFD#19, 0x5FFFF#19],
      0x40000 < a.toNat + Width.byteCount .w32 ∧ a.toNat < 0x40000 + 0x20000) ∧
    ((0x00#19).toNat < 0x28 ∧ Width.w16 ≠ .w32) ∧
    ((0x27#19).toNat < 0x28 ∧ (0x27#19).toNat % 4 ≠ 0) ∧
    (∀ a ∈ [0x28#19, 0x29#19, 0xFFFC#19, 0x30000#19, 0x3FFFC#19, 0x60000#19, 0x7FFFF#19],
      (0x28 ≤ a.toNat ∧ a.toNat + Width.byteCount .w32 ≤ 0x10000) ∨
        (0x30000 ≤ a.toNat ∧ a.toNat + Width.byteCount .w32 ≤ 0x40000) ∨ 0x60000 ≤ a.toNat) := by
  simp [Reg.offset, Width.byteCount]

theorem witness_EveryHostActionFinishesInOneStep :
    ({ small with pending := [.host (.cmd 0xFF000000#32)] } : State).pending =
      .host (.cmd 0xFF000000#32) :: [] ∧
    ({ small with pending := [.port (.read 0x29#19 .w32)] } : State).pending =
      .port (.read 0x29#19 .w32) :: [] := ⟨rfl, rfl⟩

theorem witness_IdleBlockHoldsItsState : State.reset.pending = [] := by rfl

/-- The three ways STICKY goes from 1 to 0. -/
theorem witness_StickyClearedOnlyByHostOrReset :
    ∀ a ∈ [Stimulus.host (.wr .status 0x80#32), .port (.write 0x04#19 .w32 0x80#32), .resetPulse],
      ({ small.failedWith 1#4 with pending := [a] } : State).sticky = true ∧
      after (step { small.failedWith 1#4 with pending := [a] }) (fun t => t.sticky) =
        some false := by decide

theorem witness_FailedCommandChangesOnlyStatus :
    exec (.getU8 0) small = .next (small.failedWith 1#4) ∧ (small.failedWith 1#4).code ≠ 0#4 ∧
    Instr.getU8 0 ≠ .decodeFrame := ⟨rfl, by decide, by decide⟩

theorem witness_MsgCreateMakesAZeroMessage : 0 ≤ small.cap.toNat ∧ 16 ≤ small.cap.toNat := by decide

theorem witness_MsgWrapAdoptsTheBytes : 16 ≤ small.cap.toNat := by decide

theorem witness_LengthOverflowOnlyReports :
    small.cap.toNat < 17 ∧ small.cap.toNat + 8 < 25 ∧ State.reset.cap = 65535#16 := by decide

theorem witness_SetU8StoresOneByte : 8 < (withMessage digits).msgLen.toNat := by decide

theorem witness_GetU8LoadsOneByte : 8 < (withMessage digits).msgLen.toNat := by decide

theorem witness_SetU16StoresBigEndian : 7 + 1 < (withMessage digits).msgLen.toNat := by decide

theorem witness_GetU16LoadsBigEndian : 7 + 1 < (withMessage digits).msgLen.toNat := by decide

theorem witness_MixedWidthViewOfAStoredHalf : 7 + 1 < (withMessage digits).msgLen.toNat := by decide

theorem witness_SetStrCopiesTheText :
    6 + ((withMessage digits).setCount 2#16).count.toNat <
      ((withMessage digits).setCount 2#16).msgLen.toNat := by decide

theorem witness_GetStrCopiesTheText :
    6 + ((withMessage digits).setCount 2#16).count.toNat <
      ((withMessage digits).setCount 2#16).msgLen.toNat := by decide

theorem witness_AccessorOutOfRangeOnlyReports :
    (withMessage digits).msgLen.toNat ≤ 9 ∧ (withMessage digits).msgLen.toNat ≤ 8 + 1 ∧
    ((withMessage digits).setCount 2#16).msgLen.toNat ≤
      7 + ((withMessage digits).setCount 2#16).count.toNat := by decide

theorem witness_XorLawsHold : (0x5A#8 : Byte) = 0x5A#8 ∧ (0x00#8 : Byte) = 0#8 := by decide

theorem witness_FrmWrapAdoptsTheBytes : 24 ≤ small.cap.toNat + 8 := by decide

theorem witness_EncodeBuildsTheFrame :
    9 = (withMessage digits).msgLen.toNat ∧
    crc16 ((List.range 9).map (fun i => (withMessage digits).byte .msg i ^^^
      (withMessage digits).xor2)) = 0x4B37#16 := by decide +kernel

/-- The frame of V-ENC1 meets every hypothesis, its body ending at the last place that fits. -/
theorem witness_DecodeRecoversBodyAndKeys :
    8 ≤ (withFrame frame1).frmLen.toNat ∧
    2 = ((withFrame frame1).byte .frm 1).toNat * 256 + ((withFrame frame1).byte .frm 2).toNat ∧
    2 ≤ (withFrame frame1).frmLen.toNat - 8 ∧
    0x5A#8 = (withFrame frame1).byte .frm 0 ∧
    0xA5#8 = (withFrame frame1).byte .frm (6 + 2) ^^^ (withFrame frame1).byte .frm 2 ∧
    0xEF#8 = 0x5A#8 ^^^ (withFrame frame1).byte .frm (3 + 2) := by decide

/-- V-DEC6 with 7 bytes, and V-DEC8: the boundary of each test. -/
theorem witness_DecodeFailureWritesTheSentinels :
    (withFrame (frame1.take 7)).frmLen.toNat < 8 ∧
    8 ≤ (withFrame [0x11#8, 0xFF#8, 0xFF#8, 0#8, 0#8, 0#8, 0#8, 0#8]).frmLen.toNat ∧
    8 ≤ (withFrame (frame1.take 9)).frmLen.toNat ∧
    (withFrame (frame1.take 9)).frmLen.toNat - 8 <
      ((withFrame (frame1.take 9)).byte .frm 1).toNat * 256 +
        ((withFrame (frame1.take 9)).byte .frm 2).toNat := by decide

/-- V-DEC12 and V-DEC13: three bytes of V-ENC1's frame changed. -/
def frame1Changed : State :=
  (((withFrame frame1).put .frm 6 [0x00#8]).put .frm 7 [0x00#8]).put .frm 9 [0x77#8]

theorem witness_DecodeIgnoresThreeFrameBytes :
    (8 ≤ (withFrame frame1).frmLen.toNat ∧ frame1Changed.frmLen = (withFrame frame1).frmLen ∧
      2 = ((withFrame frame1).byte .frm 1).toNat * 256 + ((withFrame frame1).byte .frm 2).toNat ∧
      2 ≤ (withFrame frame1).frmLen.toNat - 8) ∧
    ∀ j, j ≠ 4 + 2 → j ≠ 5 + 2 → j ≠ 7 + 2 →
      frame1Changed.byte .frm j = (withFrame frame1).byte .frm j := by
  refine ⟨by decide, fun j h4 h5 h7 => ?_⟩
  unfold frame1Changed
  rw [State.byte_put_outside, State.byte_put_outside, State.byte_put_outside] <;>
    · rintro ⟨_, h, h'⟩
      simp only [List.length_singleton] at h'
      omega

/-- V-DEC10: V-ENC1's frame with two bytes more, which need not agree. -/
def frame1Longer : State := (withFrame (frame1 ++ [0x77#8, 0x77#8])).put .frm 10 [0x12#8]

theorem witness_DecodeIgnoresBytesAfterTheFrame :
    (2 = ((withFrame frame1).byte .frm 1).toNat * 256 + ((withFrame frame1).byte .frm 2).toNat ∧
      8 + 2 ≤ (withFrame frame1).frmLen.toNat ∧ 8 + 2 ≤ frame1Longer.frmLen.toNat) ∧
    ∀ j < 8 + 2, frame1Longer.byte .frm j = (withFrame frame1).byte .frm j := by decide

theorem witness_SecondDecodeAppliesBothPassesAgain :
    8 ≤ (withFrame frame1).frmLen.toNat ∧
    2 = ((withFrame frame1).byte .frm 1).toNat * 256 + ((withFrame frame1).byte .frm 2).toNat ∧
    2 ≤ (withFrame frame1).frmLen.toNat - 8 := by decide

/-- A state with a Message that meets the invariant and takes a step. -/
theorem witness_EveryStepKeepsTheInvariant :
    ∃ t, State.Inv { withMessage digits with pending := [.host (.cmd 0x20000000#32)] } ∧
      step { withMessage digits with pending := [.host (.cmd 0x20000000#32)] } = .next t :=
  ⟨_, ⟨by decide, by decide, by decide, by decide, fun b => by cases b <;> decide,
    fun b => by cases b <;> decide⟩, rfl⟩

theorem witness_CommandsWriteOnlyWhatTheTableLists :
    exec (.msgWrap 16) small = .next ((small.setMsgLen 16#16).status .ok) ∧
    Reg.data ∉ writesReg (.msgWrap 16) ∧ Reg.data ≠ .status ∧
    ¬ writesByte (.msgCreate 16) small .msg 16 :=
  ⟨rfl, by decide, by decide, fun h => absurd h.2 (by decide)⟩

/-- Two states that differ in a byte beyond the Message. -/
theorem witness_CommandsReadOnlyLiveBytes :
    AgreeOnLive (withMessage digits) ((withMessage digits).put .msg 9 [0x77#8]) := by
  refine ⟨fun r => by rw [State.put_readReg], fun i hi => ?_, fun i hi => ?_, fun i hi => ?_⟩
  · rw [State.byte_put_outside]
    rintro ⟨_, h, _⟩
    have : i < 9 := hi
    omega
  · exact absurd hi (Nat.not_lt_zero i)
  · exact absurd hi (Nat.not_lt_zero i)

end Sys2Proof.Tests
end

