-- ==== Sys2Proof/Proofs/Scope.lean ====
section
/-! PROOFS. The family of 00_scope.md: every host action finishes, the idle block holds its state,
and the host's integrity check accepts what ENCODE built. -/

namespace Sys2Proof.Machine

open Sys2Proof

/-! ### Every command and every host action finishes

A result `Finishes` from `s` when it is a next state in which the same stimuli are still to come. -/

/-- The result is a next state, and the stimuli still to come are those of `s`. -/
def Finishes (s : State) (r : Result) : Prop := ∃ t, r = .next t ∧ t.pending = s.pending

theorem Finishes.next {s t : State} (h : t.pending = s.pending) : Finishes s (.next t) :=
  ⟨t, rfl, h⟩

theorem Finishes.fail (c : Code) (s : State) : Finishes s (fail c s) :=
  .next (State.status_pending s c)

theorem Finishes.failDecode (c : Code) (s : State) : Finishes s (failDecode c s) :=
  .next (by simp)

theorem Finishes.done {s u : State} (h : u.pending = s.pending) : Finishes s (done u) :=
  .next ((State.status_pending u .ok).trans h)

/-- A command that makes one test finishes on both sides of it. -/
theorem Finishes.oneTest {p : Bool} {c : Code} {s u : State} (h : u.pending = s.pending) :
    Finishes s (if p then Machine.fail c s else Machine.done u) := by
  cases p with
  | true => exact .fail c s
  | false => exact .done h

theorem execDecodeFrame_finishes (s : State) : Finishes s (execDecodeFrame s) := by
  unfold execDecodeFrame
  split
  · exact .failDecode .malformedFrame s
  · split
    · exact .failDecode .truncatedFrame s
    · exact .done (by simp)

/-- No command stops the block, and none touches the host's list of actions (R18, R165). -/
theorem exec_finishes (i : Instr) (s : State) : Finishes s (exec i s) := by
  cases i with
  | msgCreate | msgWrap | setU8 | getU8 | setU16 | getU16 | setStr | getStr | frmWrap =>
    exact .oneTest (by simp)
  | crc16 | xorBytes | encodeFrame => exact .done (by simp)
  | decodeFrame => exact execDecodeFrame_finishes s

/-- A CMD write finishes whatever its word (R72). -/
theorem issue_finishes (w : Word) (s : State) : Finishes s (issue w s) := by
  cases hw : decode w with
  | ok i => rw [issue_ok hw]; exact exec_finishes i s
  | error e => rw [issue_error hw]; exact .next (State.status_pending ..)

theorem writeReg_finishes (r : Reg) (v : Word) (s : State) : Finishes s (writeReg r v s) := by
  cases r with
  | cmd => exact issue_finishes v s
  | status | data | count | xor1 | xor2 | msgLen | frmLen | crc | cap => exact .next rfl

@[simp] theorem State.writeBuffer_pending (s : State) (b : Buffer) (i : Nat) (v : Byte) :
    (s.writeBuffer b i v).pending = s.pending := by
  unfold State.writeBuffer
  split
  · exact State.put_pending ..
  · rfl

theorem hostAction_finishes (a : HostAction) (s : State) : Finishes s (hostAction a s) := by
  cases a with
  | rd r => exact .next (State.deliver_pending ..)
  | wr r v => exact writeReg_finishes r v s
  | bw b i v => exact .next (State.writeBuffer_pending ..)
  | br b i => exact .next (State.deliver_pending ..)
  | cmd w => exact writeReg_finishes .cmd w s

/-- A raw port access is refused or finishes, by where the address map sends it (R54, log 7). -/
theorem portAccess_refused_or_finishes (p : PortAccess) (s : State) :
    portAccess p s = .refused .widePortAccessToBuffer ∨ Finishes s (portAccess p s) := by
  cases p with
  | read addr width =>
    cases ht : portTarget addr.toNat width <;> simp only [portAccess, ht]
    case register r => exact .inr (hostAction_finishes (.rd r) s)
    case byteOf b i => exact .inr (hostAction_finishes (.br b i) s)
    case nothing => exact .inr (.next (State.deliver_pending ..))
    case wideInWindow => exact .inl trivial
  | write addr width v =>
    cases ht : portTarget addr.toNat width <;> simp only [portAccess, ht]
    case register r => exact .inr (hostAction_finishes (.wr r v) s)
    case byteOf b i => exact .inr (hostAction_finishes (.bw b i (v.setWidth 8)) s)
    case nothing => exact .inr (.next rfl)
    case wideInWindow => exact .inl trivial

/-- Settles O17: a step is the next stimulus on the state whose list has moved on, and every host
action finishes there; a port access does too, or is the refused one. -/
theorem everyHostActionFinishesInOneStep : Obligations.EveryHostActionFinishesInOneStep := by
  refine ⟨fun s a rest hs => ?_, fun s p rest hs => ?_⟩
  · obtain ⟨t, ht, hrest⟩ := hostAction_finishes a { s with pending := rest }
    exact ⟨t, (step_cons hs).trans ht, ht, hrest⟩
  · rcases portAccess_refused_or_finishes p { s with pending := rest } with hr | ⟨t, ht, hrest⟩
    · exact .inl ((step_cons hs).trans hr)
    · exact .inr ⟨t, (step_cons hs).trans ht, ht, hrest⟩

/-- Settles O18: a step with no stimulus to take answers the state it started from. -/
theorem idleBlockHoldsItsState : Obligations.IdleBlockHoldsItsState := by
  intro s hidle
  exact step_nil hidle

/-! ### Reading back parts of what was written -/

/-- The part `mid` of a range of bytes just written reads back from its own place. -/
theorem State.bytes_put_append (s : State) (b : Buffer) (i : Nat) (pre mid post : List Byte) :
    (s.put b i (pre ++ mid ++ post)).bytes b (i + pre.length) mid.length = mid :=
  List.ext_getElem (by simp) fun k hk hk' => by
    rw [State.bytes_getElem, Nat.add_assoc, State.byte_put_at _ _ _ _ _ (by simp; omega)]
    simp [hk']

theorem State.byte_of_bytes {s : State} {b : Buffer} {i : Nat} {x : Byte}
    (h : s.bytes b i 1 = [x]) : s.byte b i = x := by
  simpa [State.bytes] using h

theorem State.half_of_bytes {s : State} {b : Buffer} {i : Nat} {x y : Byte}
    (h : s.bytes b i 2 = [x, y]) : s.half b i = concatBytes x y := by
  obtain ⟨hx, hy⟩ : s.byte b i = x ∧ s.byte b (i + 1) = y := by
    simpa [State.bytes, List.range_succ] using h
  rw [State.half, hx, hy]

/-- Ciphering twice with one key gives the bytes back (R115). -/
theorem xorBytes_xorBytes_same (bs : List Byte) (k : Byte) : xorBytes (xorBytes bs k) k = bs :=
  List.ext_getElem (by simp) fun i hi hi' => by simp

theorem byteOperand_toNat (k : Byte) : byteOperand k.toNat = k := by simp [byteOperand]

/-! ### What ENCODE builds -/

/-- The checksum ENCODE computes: over the Message after the second key's pass (R129). -/
def State.encodeCrc (s : State) : Half := crc16 (xorBytes s.message s.xor2)

/-- The body ENCODE places in the frame: the Message after both passes (R129). -/
def State.encodeBody (s : State) : List Byte :=
  xorBytes (xorBytes s.message s.xor2) (thirdKey s.xor1 s.encodeCrc)

/-- The frame ENCODE builds (R125, R129). -/
def State.encodeFrame (s : State) : List Byte :=
  frameHeader s.xor1 s.msgLen ++ s.encodeBody ++ frameTrailer s.encodeCrc s.xor2 s.msgLen

/-- The state ENCODE ends in. -/
def State.afterEncode (s : State) : State :=
  ((((s.put .msg 0 s.encodeBody).put .frm 0 s.encodeFrame).setFrmLen
    (longOperand (8 + s.msgLen.toNat))).setCrc s.encodeCrc).status .ok

theorem execEncodeFrame_eq (s : State) : execEncodeFrame s = .next s.afterEncode := rfl

@[simp] theorem State.encodeBody_length (s : State) : s.encodeBody.length = s.msgLen.toNat := by
  simp [State.encodeBody]

@[simp] theorem State.afterEncode_crc (s : State) : s.afterEncode.crc = s.encodeCrc := by
  simp [State.afterEncode]

/-- FRM_LEN holds `8 + MSG_LEN` without loss (R139). -/
theorem State.afterEncode_frmLen (s : State) : s.afterEncode.frmLen.toNat = 8 + s.msgLen.toNat := by
  have := s.msgLen.isLt
  simp only [State.afterEncode, State.status_frmLen, State.setCrc_frmLen, State.setFrmLen_frmLen,
    longOperand, BitVec.toNat_ofNat]
  omega

/-- A part of the frame stands in FRM at its own place. -/
theorem State.afterEncode_frm_part (s : State) {pre mid post : List Byte} {j n : Nat}
    (hframe : s.encodeFrame = pre ++ mid ++ post) (hj : j = pre.length) (hn : n = mid.length) :
    s.afterEncode.bytes .frm j n = mid := by
  subst hj hn
  simpa [State.afterEncode, hframe] using
    State.bytes_put_append (s.put .msg 0 s.encodeBody) .frm 0 pre mid post

theorem State.afterEncode_firstKey (s : State) : s.afterEncode.byte .frm 0 = s.xor1 :=
  State.byte_of_bytes <| s.afterEncode_frm_part (pre := []) (mid := [s.xor1])
    (post := bigEndian s.msgLen ++ s.encodeBody ++ frameTrailer s.encodeCrc s.xor2 s.msgLen)
    rfl rfl rfl

/-- DECODE reads from ENCODE's frame the length of the Message. -/
@[simp] theorem State.afterEncode_frameBodyLen (s : State) :
    s.afterEncode.frameBodyLen = s.msgLen :=
  (State.half_of_bytes <| s.afterEncode_frm_part (pre := [s.xor1]) (mid := bigEndian s.msgLen)
    (post := s.encodeBody ++ frameTrailer s.encodeCrc s.xor2 s.msgLen)
    (by simp [State.encodeFrame, frameHeader]) rfl rfl).trans (concatBytes_high_low _)

theorem State.afterEncode_frm_body (s : State) :
    s.afterEncode.bytes .frm 3 s.msgLen.toNat = s.encodeBody :=
  s.afterEncode_frm_part (pre := frameHeader s.xor1 s.msgLen) rfl rfl s.encodeBody_length.symm

/-- DECODE reads from ENCODE's frame the checksum ENCODE computed. -/
@[simp] theorem State.afterEncode_frameCrc (s : State) : s.afterEncode.frameCrc = s.encodeCrc := by
  rw [State.frameCrc, State.afterEncode_frameBodyLen]
  exact (State.half_of_bytes <| s.afterEncode_frm_part
    (pre := frameHeader s.xor1 s.msgLen ++ s.encodeBody) (mid := bigEndian s.encodeCrc)
    (post := [s.xor2, s.xor2 ^^^ lowByte s.msgLen, 0x00#8])
    (by simp [State.encodeFrame, frameTrailer]) (by simp) rfl).trans (concatBytes_high_low _)

/-- DECODE recovers from ENCODE's key trailer the second key (R131, R132). -/
@[simp] theorem State.afterEncode_frameKey2 (s : State) : s.afterEncode.frameKey2 = s.xor2 := by
  have htrailer : s.afterEncode.half .frm (5 + s.msgLen.toNat) =
      concatBytes s.xor2 (s.xor2 ^^^ lowByte s.msgLen) :=
    State.half_of_bytes <| s.afterEncode_frm_part
      (pre := frameHeader s.xor1 s.msgLen ++ s.encodeBody ++ bigEndian s.encodeCrc)
      (post := [0x00#8]) (by simp [State.encodeFrame, frameTrailer]) (by simp; omega) rfl
  rw [State.frameKey2, State.afterEncode_frameBodyLen, htrailer, lowByte_concatBytes,
    BitVec.xor_assoc, BitVec.xor_self, BitVec.xor_zero]

/-- DECODE's two passes undo ENCODE's (R138). -/
@[simp] theorem State.afterEncode_frameBody (s : State) : s.afterEncode.frameBody = s.message := by
  rw [State.frameBody, State.afterEncode_frameBodyLen, State.afterEncode_frm_body,
    State.afterEncode_firstKey, State.afterEncode_frameCrc, State.afterEncode_frameKey2,
    State.encodeBody, xorBytes_xorBytes_same, xorBytes_xorBytes_same]

/-! ### What DECODE returns -/

/-- The state DECODE ends in when both its tests pass (R132). -/
def State.afterDecode (s : State) : State :=
  ((((((s.put .frm 3 s.frameBody).put .msg 0 s.frameBody).setMsgLen s.frameBodyLen).setXor1
    (s.byte .frm 0)).setXor2 s.frameKey2).setCrc s.frameCrc).status .ok

theorem execDecodeFrame_ok {s : State} (hlong : 8 ≤ s.frmLen.toNat)
    (hfits : s.frameBodyLen.toNat ≤ s.frmLen.toNat - 8) :
    execDecodeFrame s = .next s.afterDecode := by
  have hshort : s.frameShort = false := s.frameShort_eq_false.2 hlong
  have hbody : s.bodyTooLong s.frameBodyLen = false := (s.bodyTooLong_eq_false _).2 hfits
  simp only [execDecodeFrame, hshort, hbody, done_eq, State.afterDecode,
    Bool.false_eq_true, if_false]

@[simp] theorem State.frameBody_length (s : State) :
    s.frameBody.length = s.frameBodyLen.toNat := by simp [State.frameBody]

@[simp] theorem State.afterDecode_crc (s : State) : s.afterDecode.crc = s.frameCrc := by
  simp [State.afterDecode]

@[simp] theorem State.afterDecode_xor2 (s : State) : s.afterDecode.xor2 = s.frameKey2 := by
  simp [State.afterDecode]

/-- The Message after DECODE is the recovered body. -/
@[simp] theorem State.afterDecode_message (s : State) : s.afterDecode.message = s.frameBody := by
  simpa [State.message, State.afterDecode] using
    State.bytes_put_same (s.put .frm 3 s.frameBody) .msg 0 s.frameBody

/-- DECODE accepts every frame that ENCODE built. -/
theorem execDecodeFrame_afterEncode (s : State) :
    execDecodeFrame s.afterEncode = .next s.afterEncode.afterDecode := by
  have hlen := s.afterEncode_frmLen
  refine execDecodeFrame_ok (by omega) ?_
  rw [State.afterEncode_frameBodyLen]
  omega

/-! ### The host's check -/

/-- The state XOR_BYTES ends in (R114). -/
def State.afterXorBytes (s : State) (key : Byte) : State :=
  (s.put .msg 0 (xorBytes s.message key)).status .ok

theorem execXorBytes_toNat (s : State) (key : Byte) :
    execXorBytes key.toNat s = .next (s.afterXorBytes key) := by
  rw [execXorBytes_eq, byteOperand_toNat, State.afterXorBytes]

@[simp] theorem State.afterXorBytes_message (s : State) (key : Byte) :
    (s.afterXorBytes key).message = xorBytes s.message key := by
  simpa [State.message, State.afterXorBytes] using
    State.bytes_put_same s .msg 0 (xorBytes s.message key)

/-- Settles O48: DECODE gives back the Message and the second key, so XOR_BYTES redoes ENCODE's
first pass, and its CRC is the checksum ENCODE computed and DECODE read from the trailer. -/
theorem hostIntegrityCheckAcceptsEncodedFrames :
    Obligations.HostIntegrityCheckAcceptsEncodedFrames := by
  intro s
  have hfirstPass : (s.afterEncode.afterDecode.afterXorBytes
      s.afterEncode.afterDecode.xor2).message = xorBytes s.message s.xor2 := by
    rw [State.afterXorBytes_message, State.afterDecode_message, State.afterDecode_xor2,
      State.afterEncode_frameBody, State.afterEncode_frameKey2]
  refine ⟨_, _, _, _, execEncodeFrame_eq s, execDecodeFrame_afterEncode s,
    execXorBytes_toNat _ _, execCrc16_eq _, ?_, ?_⟩
  · rw [State.afterDecode_crc, State.afterEncode_frameCrc, State.afterEncode_crc]
  · rw [State.status_crc, State.setCrc_crc, hfirstPass, State.afterDecode_crc,
      State.afterEncode_frameCrc, State.encodeCrc]

end Sys2Proof.Machine
end

