-- ==== Sys2Proof/Proofs/State.lean ====
section
/-! PROOFS. The family of 10_state.md: every step keeps the invariant, a command reads only live
bytes and writes only what R40's table lists, and a step runs the decoded command. -/

namespace Sys2Proof.Machine

open Sys2Proof

/-! ### What a result ensures of its next state -/

/-- The result's next state, if it has one, satisfies `P`. -/
def Ensures (r : Result) (P : State → Prop) : Prop := ∀ t, r = .next t → P t

namespace Ensures

variable {P : State → Prop}

theorem next {t : State} (h : P t) : Ensures (.next t) P :=
  fun _ heq => Host.Outcome.next.inj heq ▸ h

theorem refused (r : Refusal) : Ensures (.refused r) P := fun _ heq => by cases heq

/-- A command that makes one test ends in one of two ways, and only the second has passed it. -/
theorem oneTest {p : Bool} {c : Code} {s u : State} (hfail : P (s.status c))
    (hok : p = false → P (u.status .ok)) : Ensures (if p then fail c s else done u) P := by
  intro t hexec
  rcases oneTest_cases hexec with ⟨-, rfl⟩ | ⟨hp, rfl⟩
  · exact hfail
  · exact hok hp

/-- DECODE ends with its sentinels, or, both its tests passed, with the frame's parts. -/
theorem decodeFrame {s : State} (hfail : ∀ c, Ensures (failDecode c s) P)
    (hok : 8 ≤ s.frmLen.toNat → s.frameBodyLen.toNat ≤ s.frmLen.toNat - 8 → P s.afterDecode) :
    Ensures (execDecodeFrame s) P := by
  intro t hexec
  rcases execDecodeFrame_cases hexec with ⟨-, hf⟩ | ⟨-, -, hf⟩ | ⟨hlong, hfits, rfl⟩
  · exact hfail .malformedFrame t hf
  · exact hfail .truncatedFrame t hf
  · exact hok hlong hfits

end Ensures

@[simp] theorem State.encodeFrame_length (s : State) :
    s.encodeFrame.length = 8 + s.msgLen.toNat := by
  simp only [State.encodeFrame, List.length_append, frameHeader_length, frameTrailer_length,
    State.encodeBody_length]
  omega

/-! ### Every step keeps the invariant

Each update of the state keeps the invariant, under the bound the update needs; every command, and
then every stimulus, is a chain of such updates. -/

namespace State.Inv

variable {s : State}

theorem msgLen_le (h : s.Inv) : s.msgLen.toNat ≤ s.cap.toNat := h.msgLenLegal

theorem frmLen_le (h : s.Inv) : s.frmLen.toNat ≤ s.cap.toNat + 8 := h.frmLenLegal

theorem status (h : s.Inv) (c : Code) : (s.status c).Inv := { h with codeLegal := c.bits_le }

theorem setMsgLen (h : s.Inv) {v : Half} (hv : v.toNat ≤ s.cap.toNat) : (s.setMsgLen v).Inv :=
  { h with msgLenLegal := hv }

theorem setFrmLen (h : s.Inv) {v : Long} (hv : v.toNat ≤ s.cap.toNat + 8) : (s.setFrmLen v).Inv :=
  { h with frmLenLegal := hv }

theorem setData (h : s.Inv) (v : Half) : (s.setData v).Inv := { h with }

theorem setCount (h : s.Inv) (v : Half) : (s.setCount v).Inv := { h with }

theorem setXor1 (h : s.Inv) (v : Byte) : (s.setXor1 v).Inv := { h with }

theorem setXor2 (h : s.Inv) (v : Byte) : (s.setXor2 v).Inv := { h with }

theorem setCrc (h : s.Inv) (v : Half) : (s.setCrc v).Inv := { h with }

theorem deliver (h : s.Inv) (v : Word) : (s.deliver v).Inv := { h with }

theorem withSticky (h : s.Inv) (b : Bool) : State.Inv { s with sticky := b } := { h with }

theorem withPending (h : s.Inv) (l : List Stimulus) : State.Inv { s with pending := l } :=
  { h with }

/-- A write of bytes inside the buffer keeps the invariant. -/
theorem put (h : s.Inv) {b : Buffer} {i : Nat} {vs : List Byte}
    (hv : i + vs.length ≤ s.capacity b) : (s.put b i vs).Inv where
  capLegal := by simpa using h.capLegal
  msgLenLegal := by simpa using h.msgLenLegal
  frmLenLegal := by simpa using h.frmLenLegal
  codeLegal := by simpa using h.codeLegal
  canonical x := by
    rw [State.put_buffer]
    split
    · exact Memory.wf_put (h.canonical b) i vs
    · exact h.canonical x
  inside x := by
    rw [State.put_buffer, State.put_capacity]
    split
    case isTrue hx => subst hx; exact Memory.below_put (h.inside x) hv
    case isFalse => exact h.inside x

/-- Bytes written inside the current Message lie inside MSG. -/
theorem putInMessage (h : s.Inv) {i : Nat} {vs : List Byte}
    (hv : i + vs.length ≤ s.msgLen.toNat) : (s.put .msg i vs).Inv :=
  h.put (hv.trans h.msgLenLegal)

theorem writeBuffer (h : s.Inv) (b : Buffer) (i : Nat) (v : Byte) : (s.writeBuffer b i v).Inv := by
  unfold State.writeBuffer
  split
  case isTrue hi => exact h.put hi
  case isFalse => exact h

/-- The reset input leaves every length 0 and no byte written (R181, R182). -/
theorem pulseReset (h : s.Inv) : s.pulseReset.Inv where
  capLegal := h.capLegal
  msgLenLegal := Nat.zero_le _
  frmLenLegal := Nat.zero_le _
  codeLegal := Nat.zero_le _
  canonical b := by cases b <;> exact Memory.wf_nil
  inside b := by cases b <;> exact List.forall_mem_nil _

/-- ENCODE's frame is `8 + MSG_LEN` bytes long, which FRM holds whatever the Message (R8, R139). -/
theorem afterEncode (h : s.Inv) : s.afterEncode.Inv := by
  have hn := h.msgLen_le
  have hmsg : (s.put .msg 0 s.encodeBody).Inv := h.putInMessage (by simp)
  have hfrm : ((s.put .msg 0 s.encodeBody).put .frm 0 s.encodeFrame).Inv :=
    hmsg.put (by rw [State.encodeFrame_length, State.put_capacity, State.capacity_frm]; omega)
  have hlen : (longOperand (8 + s.msgLen.toNat)).toNat ≤ s.cap.toNat + 8 := by
    rw [longOperand_toNat_of_le (s := s) (by omega)]
    omega
  exact ((hfrm.setFrmLen (by simpa using hlen)).setCrc _).status .ok

/-- DECODE accepts only a body that lies inside the frame, so inside FRM and inside MSG (R160). -/
theorem afterDecode (h : s.Inv) (hlong : 8 ≤ s.frmLen.toNat)
    (hfits : s.frameBodyLen.toNat ≤ s.frmLen.toNat - 8) : s.afterDecode.Inv := by
  have hfrmLen := h.frmLen_le
  have hfrm : (s.put .frm 3 s.frameBody).Inv :=
    h.put (by rw [State.frameBody_length, State.capacity_frm]; omega)
  have hmsg : ((s.put .frm 3 s.frameBody).put .msg 0 s.frameBody).Inv :=
    hfrm.put (by rw [State.frameBody_length, State.put_capacity, State.capacity_msg]; omega)
  have hlen := hmsg.setMsgLen (v := s.frameBodyLen) (by simp only [State.put_cap]; omega)
  exact (((hlen.setXor1 _).setXor2 _).setCrc _).status .ok

theorem failDecode (h : s.Inv) (c : Code) : Ensures (Machine.failDecode c s) State.Inv :=
  .next (((((h.setMsgLen (Nat.zero_le _)).setXor1 _).setXor2 _).setCrc _).status c)

end State.Inv

theorem execMsgCreate_keepsInv {s : State} (h : s.Inv) (len : Nat) :
    Ensures (execMsgCreate len s) State.Inv := by
  refine .oneTest (h.status _) fun hok => ?_
  have hlen : len ≤ s.cap.toNat := (s.overflows_eq_false .msg len).1 hok
  have hput : (s.put .msg 0 (List.replicate len 0#8)).Inv :=
    h.put (by simpa [State.capacity_msg] using hlen)
  exact (hput.setMsgLen (by simpa [halfOperand_toNat_of_le hlen] using hlen)).status _

theorem execMsgWrap_keepsInv {s : State} (h : s.Inv) (len : Nat) :
    Ensures (execMsgWrap len s) State.Inv := by
  refine .oneTest (h.status _) fun hok => ?_
  have hlen : len ≤ s.cap.toNat := (s.overflows_eq_false .msg len).1 hok
  exact (h.setMsgLen (by rwa [halfOperand_toNat_of_le hlen])).status _

theorem execFrmWrap_keepsInv {s : State} (h : s.Inv) (len : Nat) :
    Ensures (execFrmWrap len s) State.Inv := by
  refine .oneTest (h.status _) fun hok => ?_
  have hlen : len ≤ s.cap.toNat + 8 := (s.overflows_eq_false .frm len).1 hok
  exact (h.setFrmLen (by rwa [longOperand_toNat_of_le hlen])).status _

theorem execSetStr_keepsInv {s : State} (h : s.Inv) (off : Nat) :
    Ensures (execSetStr off s) State.Inv := by
  refine .oneTest (h.status _) fun hok => (h.putInMessage ?_).status _
  have hoff := (s.outOfRangeStr_eq_false off).1 hok
  rw [State.bytes_length]
  omega

/-- COUNT is below MSG_LEN where GET_STR's test passes, so the text lies inside STR (R8, R93). -/
theorem execGetStr_keepsInv {s : State} (h : s.Inv) (off : Nat) :
    Ensures (execGetStr off s) State.Inv := by
  refine .oneTest (h.status _) fun hok => (h.put ?_).status _
  have hoff := (s.outOfRangeStr_eq_false off).1 hok
  have hn := h.msgLen_le
  rw [State.bytes_length, State.capacity_str]
  omega

/-- Every command keeps the invariant: what it makes a length or an index has passed its test. -/
theorem exec_keepsInv {s : State} (h : s.Inv) (i : Instr) : Ensures (exec i s) State.Inv := by
  cases i with
  | msgCreate len => exact execMsgCreate_keepsInv h len
  | msgWrap len => exact execMsgWrap_keepsInv h len
  | setU8 off val =>
    exact .oneTest (h.status _) fun hok =>
      (h.putInMessage ((s.outOfRange8_eq_false off).1 hok)).status _
  | setU16 off =>
    exact .oneTest (h.status _) fun hok =>
      (h.putInMessage ((s.outOfRange16_eq_false off).1 hok)).status _
  | getU8 | getU16 => exact .oneTest (h.status _) fun _ => (h.setData _).status _
  | setStr off => exact execSetStr_keepsInv h off
  | getStr off => exact execGetStr_keepsInv h off
  | crc16 => exact .next ((h.setCrc _).status _)
  | xorBytes key => exact .next ((h.putInMessage (by simp)).status _)
  | encodeFrame => exact .next h.afterEncode
  | frmWrap len => exact execFrmWrap_keepsInv h len
  | decodeFrame => exact .decodeFrame h.failDecode h.afterDecode

theorem issue_keepsInv {s : State} (h : s.Inv) (w : Word) :
    Ensures (issue w s) State.Inv := by
  cases hw : decode w with
  | ok i => rw [issue_ok hw]; exact exec_keepsInv h i
  | error e => rw [issue_error hw]; exact .next (h.status _)

theorem writeReg_keepsInv {s : State} (h : s.Inv) (r : Reg) (v : Word) :
    Ensures (writeReg r v s) State.Inv := by
  cases r with
  | cmd => exact issue_keepsInv h v
  | status => exact .next (h.withSticky _)
  | data => exact .next (h.setData _)
  | count => exact .next (h.setCount _)
  | xor1 => exact .next (h.setXor1 _)
  | xor2 => exact .next (h.setXor2 _)
  | msgLen | frmLen | crc | cap => exact .next h

theorem hostAction_keepsInv {s : State} (h : s.Inv) (a : HostAction) :
    Ensures (hostAction a s) State.Inv := by
  cases a with
  | rd r => exact .next (h.deliver _)
  | wr r v => exact writeReg_keepsInv h r v
  | bw b i v => exact .next (h.writeBuffer b i v)
  | br b i => exact .next (h.deliver _)
  | cmd w => exact writeReg_keepsInv h .cmd w

theorem portAccess_keepsInv {s : State} (h : s.Inv) (p : PortAccess) :
    Ensures (portAccess p s) State.Inv := by
  cases p with
  | read addr width =>
    cases ht : portTarget addr.toNat width <;> simp only [portAccess, ht]
    case register r => exact hostAction_keepsInv h (.rd r)
    case byteOf b i => exact hostAction_keepsInv h (.br b i)
    case nothing => exact .next (h.deliver _)
    case wideInWindow => exact .refused _
  | write addr width v =>
    cases ht : portTarget addr.toNat width <;> simp only [portAccess, ht]
    case register r => exact hostAction_keepsInv h (.wr r v)
    case byteOf b i => exact hostAction_keepsInv h (.bw b i _)
    case nothing => exact .next h
    case wideInWindow => exact .refused _

theorem stimulate_keepsInv {s : State} (h : s.Inv) (a : Stimulus) :
    Ensures (stimulate a s) State.Inv := by
  cases a with
  | host a => exact hostAction_keepsInv h a
  | port p => exact portAccess_keepsInv h p
  | resetPulse => exact .next h.pulseReset

/-- Settles O49: an idle step answers the state it started from, and any other is a stimulus, which
keeps the invariant. -/
theorem everyStepKeepsTheInvariant : Obligations.EveryStepKeepsTheInvariant := by
  intro s t h hstep
  cases hp : s.pending with
  | nil => exact Ensures.next h t ((step_nil hp).symm.trans hstep)
  | cons a rest =>
    exact stimulate_keepsInv (h.withPending rest) a t ((step_cons hp).symm.trans hstep)

/-! ### What each command writes

The writes of a command are bounded by a list of registers and a set of bytes, update by update. -/

/-- From `s` to `t` no register changed, as the host reads it, but STATUS and those in `regs`, no
buffer byte but those in `bytes`, and nothing of the model's own fields. -/
structure WritesOnly (regs : List Reg) (bytes : Buffer → Nat → Prop) (s t : State) : Prop where
  registers : ∀ r, r ∉ regs → r ≠ .status → t.readReg r = s.readReg r
  bytes : ∀ b j, ¬ bytes b j → t.byte b j = s.byte b j
  epoch : t.epoch = s.epoch
  pending : t.pending = s.pending
  returned : t.returned = s.returned

namespace WritesOnly

variable {regs : List Reg} {bytes : Buffer → Nat → Prop} {s u : State}

theorem refl (s : State) : WritesOnly regs bytes s s :=
  ⟨fun _ _ _ => rfl, fun _ _ _ => rfl, rfl, rfl, rfl⟩

theorem status (h : WritesOnly regs bytes s u) (c : Code) : WritesOnly regs bytes s (u.status c) :=
  { h with registers := fun r hr hs => (u.status_readReg c hs).trans (h.registers r hr hs) }

/-- A command that fails changes STATUS alone. -/
theorem failed (s : State) (c : Code) : WritesOnly regs bytes s (s.status c) := (refl s).status c

/-- A write of listed bytes. -/
theorem put (h : WritesOnly regs bytes s u) {b : Buffer} {i : Nat} {vs : List Byte}
    (hlisted : ∀ j, i ≤ j → j < i + vs.length → bytes b j) :
    WritesOnly regs bytes s (u.put b i vs) where
  registers r hr hs := (u.put_readReg b i vs r).trans (h.registers r hr hs)
  bytes x j hj := by
    rw [State.byte_put_outside, h.bytes x j hj]
    rintro ⟨rfl, hlo, hhi⟩
    exact hj (hlisted j hlo hhi)
  epoch := (u.put_epoch b i vs).trans h.epoch
  pending := (u.put_pending b i vs).trans h.pending
  returned := (u.put_returned b i vs).trans h.returned

/-- The registers after a write to the listed register `q`, given that it reaches no other. -/
theorem registers_of_listed (h : WritesOnly regs bytes s u) {v : State} {q : Reg} (hq : q ∈ regs)
    (hv : ∀ {r : Reg}, r ≠ q → v.readReg r = u.readReg r) :
    ∀ r, r ∉ regs → r ≠ .status → v.readReg r = s.readReg r :=
  fun r hr hs => (hv (ne_of_mem_of_not_mem hq hr).symm).trans (h.registers r hr hs)

theorem setMsgLen (h : WritesOnly regs bytes s u) (v : Half) (hq : Reg.msgLen ∈ regs) :
    WritesOnly regs bytes s (u.setMsgLen v) :=
  { h with registers := h.registers_of_listed hq (u.setMsgLen_readReg v) }

theorem setFrmLen (h : WritesOnly regs bytes s u) (v : Long) (hq : Reg.frmLen ∈ regs) :
    WritesOnly regs bytes s (u.setFrmLen v) :=
  { h with registers := h.registers_of_listed hq (u.setFrmLen_readReg v) }

theorem setData (h : WritesOnly regs bytes s u) (v : Half) (hq : Reg.data ∈ regs) :
    WritesOnly regs bytes s (u.setData v) :=
  { h with registers := h.registers_of_listed hq (u.setData_readReg v) }

theorem setXor1 (h : WritesOnly regs bytes s u) (v : Byte) (hq : Reg.xor1 ∈ regs) :
    WritesOnly regs bytes s (u.setXor1 v) :=
  { h with registers := h.registers_of_listed hq (u.setXor1_readReg v) }

theorem setXor2 (h : WritesOnly regs bytes s u) (v : Byte) (hq : Reg.xor2 ∈ regs) :
    WritesOnly regs bytes s (u.setXor2 v) :=
  { h with registers := h.registers_of_listed hq (u.setXor2_readReg v) }

theorem setCrc (h : WritesOnly regs bytes s u) (v : Half) (hq : Reg.crc ∈ regs) :
    WritesOnly regs bytes s (u.setCrc v) :=
  { h with registers := h.registers_of_listed hq (u.setCrc_readReg v) }

end WritesOnly

/-- From `s` to `t` command `i` wrote only what R40's table lists for it. -/
abbrev WritesListed (i : Instr) (s t : State) : Prop :=
  WritesOnly (writesReg i) (writesByte i s) s t

theorem afterEncode_writesListed (s : State) : WritesListed .encodeFrame s s.afterEncode := by
  have hmsg : WritesListed .encodeFrame s (s.put .msg 0 s.encodeBody) :=
    (WritesOnly.refl s).put fun j _ hj => .inl ⟨rfl, by simpa using hj⟩
  have hfrm : WritesListed .encodeFrame s
      ((s.put .msg 0 s.encodeBody).put .frm 0 s.encodeFrame) :=
    hmsg.put fun j _ hj => .inr ⟨rfl, by simpa using hj⟩
  exact ((hfrm.setFrmLen _ (by decide)).setCrc _ (by decide)).status .ok

theorem afterDecode_writesListed (s : State) : WritesListed .decodeFrame s s.afterDecode := by
  have hfrm : WritesListed .decodeFrame s (s.put .frm 3 s.frameBody) :=
    (WritesOnly.refl s).put fun j hlo hj => .inl ⟨rfl, hlo, by simpa using hj⟩
  have hmsg : WritesListed .decodeFrame s
      ((s.put .frm 3 s.frameBody).put .msg 0 s.frameBody) :=
    hfrm.put fun j _ hj => .inr ⟨rfl, by simpa using hj⟩
  exact ((((hmsg.setMsgLen _ (by decide)).setXor1 _ (by decide)).setXor2 _ (by decide)).setCrc _
    (by decide)).status .ok

/-- DECODE's sentinels are in registers the table lists (R133). -/
theorem failDecode_writesListed (s : State) (c : Code) :
    Ensures (failDecode c s) (WritesListed .decodeFrame s) :=
  .next <| (((((WritesOnly.refl s).setMsgLen _ (by decide)).setXor1 _ (by decide)).setXor2 _
    (by decide)).setCrc _ (by decide)).status c

/-- Every command writes only what the table lists for it (R40). -/
theorem exec_writesListed (i : Instr) (s : State) : Ensures (exec i s) (WritesListed i s) := by
  cases i with
  | msgCreate len =>
    exact .oneTest (.failed s _) fun _ =>
      ((WritesOnly.refl s |>.put fun j _ hj => ⟨rfl, by simpa using hj⟩).setMsgLen _
        List.mem_cons_self).status _
  | msgWrap len =>
    exact .oneTest (.failed s _) fun _ =>
      ((WritesOnly.refl s).setMsgLen _ List.mem_cons_self).status _
  | frmWrap len =>
    exact .oneTest (.failed s _) fun _ =>
      ((WritesOnly.refl s).setFrmLen _ List.mem_cons_self).status _
  | setU8 off val =>
    exact .oneTest (.failed s _) fun _ =>
      (WritesOnly.refl s |>.put fun j hlo hj =>
        ⟨rfl, Nat.le_antisymm (Nat.le_of_lt_succ hj) hlo⟩).status _
  | setU16 off =>
    exact .oneTest (.failed s _) fun _ =>
      (WritesOnly.refl s |>.put fun j hlo hj =>
        ⟨rfl, by rw [bigEndian_length] at hj; omega⟩).status _
  | getU8 | getU16 =>
    exact .oneTest (.failed s _) fun _ =>
      ((WritesOnly.refl s).setData _ List.mem_cons_self).status _
  | setStr off =>
    exact .oneTest (.failed s _) fun _ =>
      (WritesOnly.refl s |>.put fun j hlo hj => ⟨rfl, hlo, by simpa using hj⟩).status _
  | getStr off =>
    exact .oneTest (.failed s _) fun _ =>
      (WritesOnly.refl s |>.put fun j _ hj => ⟨rfl, by simpa using hj⟩).status _
  | crc16 => exact .next (((WritesOnly.refl s).setCrc _ (by decide)).status _)
  | xorBytes key =>
    exact .next ((WritesOnly.refl s |>.put fun j _ hj => ⟨rfl, by simpa using hj⟩).status _)
  | encodeFrame => exact .next (afterEncode_writesListed s)
  | decodeFrame =>
    exact .decodeFrame (failDecode_writesListed s) fun _ _ => afterDecode_writesListed s

/-- Settles O50, from the writes of each command. -/
theorem commandsWriteOnlyWhatTheTableLists : Obligations.CommandsWriteOnlyWhatTheTableLists := by
  intro i s t hexec
  obtain ⟨hregs, hbytes, hepoch, hpending, hreturned⟩ := exec_writesListed i s t hexec
  exact ⟨hregs, hbytes, hepoch, hpending, hreturned⟩

/-! ### No command reads a byte that is not live

The same update of two states that agree on their live bytes gives two such states; every test and
every value a command writes is the same on both sides. -/

/-- The two states hold the same values in all registers. -/
structure SameRegisters (s t : State) : Prop where
  code : s.code = t.code
  sticky : s.sticky = t.sticky
  msgLen : s.msgLen = t.msgLen
  frmLen : s.frmLen = t.frmLen
  data : s.data = t.data
  count : s.count = t.count
  xor1 : s.xor1 = t.xor1
  xor2 : s.xor2 = t.xor2
  crc : s.crc = t.crc
  cap : s.cap = t.cap

/-- A register read zero-extended to 32 bits loses nothing (R50). -/
theorem eq_of_setWidth_eq {n : Nat} (hn : n ≤ 32) {x y : BitVec n}
    (h : x.setWidth 32 = y.setWidth 32) : x = y := by
  simpa [BitVec.setWidth_setWidth_of_le, hn] using congrArg (BitVec.setWidth n) h

theorem statusByte_inj {b b' : Bool} {c c' : BitVec 4} (h : statusByte b c = statusByte b' c') :
    b = b' ∧ c = c' := by
  have hnum := congrArg BitVec.toNat h
  rw [statusByte_toNat, statusByte_toNat] at hnum
  have hc := c.isLt
  have hc' := c'.isLt
  have hcode : c.toNat = c'.toNat := by omega
  have hsticky : b.toNat = b'.toNat := by omega
  have hset : b = true ↔ b' = true := by
    rw [← Bool.toNat_eq_one, ← Bool.toNat_eq_one, hsticky]
  exact ⟨Bool.eq_iff_iff.2 hset, BitVec.eq_of_toNat_eq hcode⟩

/-- The host tells two states apart by the ten registers exactly where one of them differs. -/
theorem sameRegisters_iff {s t : State} :
    (∀ r, s.readReg r = t.readReg r) ↔ SameRegisters s t := by
  constructor
  · intro h
    obtain ⟨hsticky, hcode⟩ := statusByte_inj (eq_of_setWidth_eq (by decide) (h .status))
    exact {
      code := hcode
      sticky := hsticky
      msgLen := eq_of_setWidth_eq (by decide) (h .msgLen)
      frmLen := eq_of_setWidth_eq (by decide) (h .frmLen)
      data := eq_of_setWidth_eq (by decide) (h .data)
      count := eq_of_setWidth_eq (by decide) (h .count)
      xor1 := eq_of_setWidth_eq (by decide) (h .xor1)
      xor2 := eq_of_setWidth_eq (by decide) (h .xor2)
      crc := eq_of_setWidth_eq (by decide) (h .crc)
      cap := eq_of_setWidth_eq (by decide) (h .cap) }
  · intro h r
    cases r <;> simp only [State.readReg, h.code, h.sticky, h.msgLen, h.frmLen, h.data, h.count,
      h.xor1, h.xor2, h.crc, h.cap]

/-- The same write to two states leaves a byte equal if it wrote the byte or found it equal. -/
theorem State.byte_put_congr {s t : State} {b x : Buffer} {i j : Nat} {vs : List Byte}
    (h : ¬ (x = b ∧ i ≤ j ∧ j < i + vs.length) → s.byte x j = t.byte x j) :
    (s.put b i vs).byte x j = (t.put b i vs).byte x j := by
  rw [State.byte_put, State.byte_put]
  split
  · rfl
  case isFalse hout => exact h hout

namespace SameRegisters

variable {s t : State}

theorem status (h : SameRegisters s t) (c : Code) : SameRegisters (s.status c) (t.status c) :=
  { h with code := rfl, sticky := congrArg (stickyAfter · c) h.sticky }

theorem setMsgLen (h : SameRegisters s t) {v v' : Half} (hv : v = v') :
    SameRegisters (s.setMsgLen v) (t.setMsgLen v') := { h with msgLen := hv }

theorem setFrmLen (h : SameRegisters s t) {v v' : Long} (hv : v = v') :
    SameRegisters (s.setFrmLen v) (t.setFrmLen v') := { h with frmLen := hv }

/-! The tests on operands read registers alone. -/

theorem capacity (h : SameRegisters s t) (b : Buffer) : s.capacity b = t.capacity b := by
  rw [State.capacity, State.capacity, h.cap]

theorem overflows (h : SameRegisters s t) (b : Buffer) (len : Nat) :
    s.overflows b len = t.overflows b len := by
  simp only [State.overflows, h.capacity b]

theorem outOfRange8 (h : SameRegisters s t) (off : Nat) :
    s.outOfRange8 off = t.outOfRange8 off := by
  simp only [State.outOfRange8, h.msgLen]

theorem outOfRange16 (h : SameRegisters s t) (off : Nat) :
    s.outOfRange16 off = t.outOfRange16 off := by
  simp only [State.outOfRange16, h.msgLen]

theorem outOfRangeStr (h : SameRegisters s t) (off : Nat) :
    s.outOfRangeStr off = t.outOfRangeStr off := by
  simp only [State.outOfRangeStr, h.msgLen, h.count]

theorem frameShort (h : SameRegisters s t) : s.frameShort = t.frameShort := by
  simp only [State.frameShort, h.frmLen]

theorem bodyTooLong (h : SameRegisters s t) {n n' : Half} (hn : n = n') :
    s.bodyTooLong n = t.bodyTooLong n' := by
  simp only [State.bodyTooLong, h.frmLen, hn]

end SameRegisters

namespace AgreeOnLive

variable {s t : State}

theorem same (h : AgreeOnLive s t) : SameRegisters s t := sameRegisters_iff.1 h.registers

/-! What a command reads of the live bytes. -/

theorem msgBytes (h : AgreeOnLive s t) {i n : Nat} (hn : i + n ≤ s.msgLen.toNat) :
    s.bytes .msg i n = t.bytes .msg i n :=
  State.bytes_congr fun k _ => h.message (i + k) (by omega)

theorem frmBytes (h : AgreeOnLive s t) {i n : Nat} (hn : i + n ≤ s.frmLen.toNat) :
    s.bytes .frm i n = t.bytes .frm i n :=
  State.bytes_congr fun k _ => h.frame (i + k) (by omega)

theorem strBytes (h : AgreeOnLive s t) {i n : Nat} (hn : i + n ≤ s.count.toNat) :
    s.bytes .str i n = t.bytes .str i n :=
  State.bytes_congr fun k _ => h.text (i + k) (by omega)

theorem msgHalf (h : AgreeOnLive s t) {i : Nat} (hi : i + 1 < s.msgLen.toNat) :
    s.half .msg i = t.half .msg i := by
  rw [State.half, State.half, h.message i (by omega), h.message (i + 1) hi]

theorem frmHalf (h : AgreeOnLive s t) {i : Nat} (hi : i + 1 < s.frmLen.toNat) :
    s.half .frm i = t.half .frm i := by
  rw [State.half, State.half, h.frame i (by omega), h.frame (i + 1) hi]

theorem message_eq (h : AgreeOnLive s t) : s.message = t.message := by
  rw [State.message, State.message, ← h.same.msgLen, h.msgBytes (Nat.zero_add _).le]

/-! The same update on both sides. -/

theorem status (h : AgreeOnLive s t) (c : Code) : AgreeOnLive (s.status c) (t.status c) :=
  { h with registers := sameRegisters_iff.2 (h.same.status c) }

theorem setData (h : AgreeOnLive s t) {v v' : Half} (hv : v = v') :
    AgreeOnLive (s.setData v) (t.setData v') :=
  { h with registers := sameRegisters_iff.2 { h.same with data := hv } }

theorem setXor1 (h : AgreeOnLive s t) {v v' : Byte} (hv : v = v') :
    AgreeOnLive (s.setXor1 v) (t.setXor1 v') :=
  { h with registers := sameRegisters_iff.2 { h.same with xor1 := hv } }

theorem setXor2 (h : AgreeOnLive s t) {v v' : Byte} (hv : v = v') :
    AgreeOnLive (s.setXor2 v) (t.setXor2 v') :=
  { h with registers := sameRegisters_iff.2 { h.same with xor2 := hv } }

theorem setCrc (h : AgreeOnLive s t) {v v' : Half} (hv : v = v') :
    AgreeOnLive (s.setCrc v) (t.setCrc v') :=
  { h with registers := sameRegisters_iff.2 { h.same with crc := hv } }

/-- A new MSG_LEN makes bytes of MSG live that may not have been. -/
theorem setMsgLen (h : AgreeOnLive s t) {v v' : Half} (hv : v = v')
    (hmsg : ∀ i < v.toNat, s.byte .msg i = t.byte .msg i) :
    AgreeOnLive (s.setMsgLen v) (t.setMsgLen v') :=
  { h with registers := sameRegisters_iff.2 (h.same.setMsgLen hv), message := hmsg }

/-- A new FRM_LEN makes bytes of FRM live that may not have been. -/
theorem setFrmLen (h : AgreeOnLive s t) {v v' : Long} (hv : v = v')
    (hfrm : ∀ i < v.toNat, s.byte .frm i = t.byte .frm i) :
    AgreeOnLive (s.setFrmLen v) (t.setFrmLen v') :=
  { h with registers := sameRegisters_iff.2 (h.same.setFrmLen hv), frame := hfrm }

theorem put (h : AgreeOnLive s t) (b : Buffer) (i : Nat) {vs vs' : List Byte} (hv : vs = vs') :
    AgreeOnLive (s.put b i vs) (t.put b i vs') := by
  subst hv
  exact {
    registers := fun r => by rw [State.put_readReg, State.put_readReg, h.registers r]
    message := fun j hj => State.byte_put_congr fun _ => h.message j (by simpa using hj)
    frame := fun j hj => State.byte_put_congr fun _ => h.frame j (by simpa using hj)
    text := fun j hj => State.byte_put_congr fun _ => h.text j (by simpa using hj) }

/-! ENCODE, and the parts of the frame that DECODE reads. -/

theorem encodeCrc (h : AgreeOnLive s t) : s.encodeCrc = t.encodeCrc := by
  rw [State.encodeCrc, State.encodeCrc, h.message_eq, h.same.xor2]

theorem encodeBody (h : AgreeOnLive s t) : s.encodeBody = t.encodeBody := by
  rw [State.encodeBody, State.encodeBody, h.encodeCrc, h.message_eq, h.same.xor1, h.same.xor2]

theorem encodeFrame (h : AgreeOnLive s t) : s.encodeFrame = t.encodeFrame := by
  rw [State.encodeFrame, State.encodeFrame, h.encodeBody, h.encodeCrc, h.same.msgLen, h.same.xor1,
    h.same.xor2]

/-- ENCODE writes every byte of the frame it makes live. -/
theorem afterEncode (h : AgreeOnLive s t) : AgreeOnLive s.afterEncode t.afterEncode := by
  have hput := (h.put .msg 0 h.encodeBody).put .frm 0 h.encodeFrame
  refine ((hput.setFrmLen (by rw [h.same.msgLen]) fun j hj => ?_).setCrc h.encodeCrc).status .ok
  have hlen := hj.trans_le (Nat.mod_le (8 + s.msgLen.toNat) (2 ^ 24))
  rw [← h.encodeFrame]
  exact State.byte_put_congr fun hout => absurd ⟨rfl, Nat.zero_le j, by simpa using hlen⟩ hout

/-- A frame of at least 8 bytes holds the length field, and one that holds the body too holds the
first key, the body, the checksum and the key trailer (R125). -/
theorem frameBodyLen (h : AgreeOnLive s t) (hlong : 8 ≤ s.frmLen.toNat) :
    s.frameBodyLen = t.frameBodyLen := h.frmHalf (by omega)

section

variable (h : AgreeOnLive s t) (hlong : 8 ≤ s.frmLen.toNat)
  (hfits : s.frameBodyLen.toNat ≤ s.frmLen.toNat - 8)

include h hlong hfits

theorem frameCrc : s.frameCrc = t.frameCrc := by
  rw [State.frameCrc, State.frameCrc, ← h.frameBodyLen hlong, h.frmHalf (by omega)]

theorem frameKey2 : s.frameKey2 = t.frameKey2 := by
  rw [State.frameKey2, State.frameKey2, ← h.frameBodyLen hlong, h.frmHalf (by omega)]

theorem frameBody : s.frameBody = t.frameBody := by
  rw [State.frameBody, State.frameBody, ← h.frameBodyLen hlong, h.frmBytes (by omega),
    h.frame 0 (by omega), h.frameCrc hlong hfits, h.frameKey2 hlong hfits]

/-- DECODE writes every byte of the Message it makes live. -/
theorem afterDecode : AgreeOnLive s.afterDecode t.afterDecode := by
  have hbody := h.frameBody hlong hfits
  have hput := (h.put .frm 3 hbody).put .msg 0 hbody
  refine ((((hput.setMsgLen (h.frameBodyLen hlong) fun j hj => ?_).setXor1
    (h.frame 0 (by omega))).setXor2 (h.frameKey2 hlong hfits)).setCrc
    (h.frameCrc hlong hfits)).status .ok
  rw [← hbody]
  exact State.byte_put_congr fun hout => absurd ⟨rfl, Nat.zero_le j, by simpa using hj⟩ hout

end

end AgreeOnLive

/-- Both results are next states, with the same registers, and agree on their live bytes again
unless the command is an adopting one. -/
def EndAlike (adopting : Bool) (r r' : Result) : Prop :=
  ∃ t t', r = .next t ∧ r' = .next t' ∧ (∀ reg, t.readReg reg = t'.readReg reg) ∧
    (adopting = false → AgreeOnLive t t')

namespace EndAlike

variable {adopting : Bool} {s s' t t' : State}

theorem agreeing (h : AgreeOnLive t t') : EndAlike adopting (.next t) (.next t') :=
  ⟨t, t', rfl, rfl, h.registers, fun _ => h⟩

theorem adopted (h : SameRegisters t t') : EndAlike true (.next t) (.next t') :=
  ⟨t, t', rfl, rfl, sameRegisters_iff.2 h, nofun⟩

/-- Both sides take the same branch of a test with one answer. -/
theorem ite {p p' : Bool} {x x' y y' : Result} (hp : p = p')
    (hx : p = true → EndAlike adopting x x') (hy : p = false → EndAlike adopting y y') :
    EndAlike adopting (if p then x else y) (if p' then x' else y') := by
  subst hp
  cases p with
  | true => exact hx rfl
  | false => exact hy rfl

theorem fail (h : AgreeOnLive s s') (c : Code) :
    EndAlike adopting (Machine.fail c s) (Machine.fail c s') := .agreeing (h.status c)

/-- DECODE's sentinels leave no Message to differ in (R133). -/
theorem failDecode (h : AgreeOnLive s s') (c : Code) :
    EndAlike adopting (Machine.failDecode c s) (Machine.failDecode c s') :=
  .agreeing <| ((((h.setMsgLen rfl fun _ hi => absurd hi (Nat.not_lt_zero _)).setXor1 rfl).setXor2
    rfl).setCrc rfl).status c

/-- A command that makes one test. -/
theorem oneTest {p p' : Bool} {c : Code} (h : AgreeOnLive s s') (hp : p = p')
    (hok : p = false → EndAlike adopting (done t) (done t')) :
    EndAlike adopting (if p then Machine.fail c s else done t)
      (if p' then Machine.fail c s' else done t') :=
  .ite hp (fun _ => .fail h c) hok

end EndAlike

theorem execMsgCreate_endAlike {s t : State} (h : AgreeOnLive s t) (len : Nat) :
    EndAlike false (execMsgCreate len s) (execMsgCreate len t) := by
  refine .oneTest h (h.same.overflows .msg len) fun _ => .agreeing ?_
  refine ((h.put .msg 0 rfl).setMsgLen rfl fun j hj => ?_).status .ok
  have hlen : j < len := hj.trans_le (Nat.mod_le len (2 ^ 16))
  exact State.byte_put_congr fun hout => absurd ⟨rfl, Nat.zero_le j, by simpa using hlen⟩ hout

theorem execDecodeFrame_endAlike {s t : State} (h : AgreeOnLive s t) :
    EndAlike false (execDecodeFrame s) (execDecodeFrame t) := by
  refine .ite h.same.frameShort (fun _ => .failDecode h _) fun hshort => ?_
  have hlong := s.frameShort_eq_false.1 hshort
  refine .ite (h.same.bodyTooLong (h.frameBodyLen hlong)) (fun _ => .failDecode h _) fun hbody => ?_
  exact .agreeing (h.afterDecode hlong ((s.bodyTooLong_eq_false _).1 hbody))

/-- Every command ends alike on two states that agree on their live bytes. -/
theorem exec_endAlike {s t : State} (h : AgreeOnLive s t) (i : Instr) :
    EndAlike (adopts i) (exec i s) (exec i t) := by
  cases i with
  | msgCreate len => exact execMsgCreate_endAlike h len
  | msgWrap len =>
    exact .oneTest h (h.same.overflows .msg len) fun _ => .adopted ((h.same.setMsgLen rfl).status _)
  | frmWrap len =>
    exact .oneTest h (h.same.overflows .frm len) fun _ => .adopted ((h.same.setFrmLen rfl).status _)
  | setU8 off val =>
    exact .oneTest h (h.same.outOfRange8 off) fun _ => .agreeing ((h.put .msg off rfl).status _)
  | getU8 off =>
    refine .oneTest h (h.same.outOfRange8 off) fun hok => .agreeing ((h.setData ?_).status _)
    rw [h.message off ((s.outOfRange8_eq_false off).1 hok)]
  | setU16 off =>
    exact .oneTest h (h.same.outOfRange16 off) fun _ =>
      .agreeing ((h.put .msg off (congrArg bigEndian h.same.data)).status _)
  | getU16 off =>
    refine .oneTest h (h.same.outOfRange16 off) fun hok => .agreeing ((h.setData ?_).status _)
    exact h.msgHalf ((s.outOfRange16_eq_false off).1 hok)
  | setStr off =>
    refine .oneTest h (h.same.outOfRangeStr off) fun _ => .agreeing ((h.put .msg off ?_).status _)
    rw [← h.same.count, h.strBytes (Nat.zero_add _).le]
  | getStr off =>
    refine .oneTest h (h.same.outOfRangeStr off) fun hok => .agreeing ((h.put .str 0 ?_).status _)
    rw [← h.same.count, h.msgBytes ((s.outOfRangeStr_eq_false off).1 hok).le]
  | crc16 => exact .agreeing ((h.setCrc (congrArg crc16 h.message_eq)).status _)
  | xorBytes key =>
    exact .agreeing ((h.put .msg 0 (congrArg (xorBytes · _) h.message_eq)).status _)
  | encodeFrame => exact .agreeing h.afterEncode
  | decodeFrame => exact execDecodeFrame_endAlike h

/-- Settles O51, from how each command ends on the two states. -/
theorem commandsReadOnlyLiveBytes : Obligations.CommandsReadOnlyLiveBytes := by
  intro i s s' h
  exact exec_endAlike h i

/-! ### A step runs the decoded command -/

/-- Settles O5: each of the four is one stimulus, which issues the word, and a legal word issued is
the command it stands for. -/
theorem stepRunsTheDecodedCommand : Obligations.StepRunsTheDecodedCommand := by
  intro s w i rest hw
  refine ⟨fun hp => ?_, fun hp => ?_, fun hp => ?_, ?_⟩
  · exact (step_cons hp).trans (issue_ok hw _)
  · exact (step_cons hp).trans (issue_ok hw _)
  · have htarget : portTarget (0#19).toNat .w32 = .register .cmd := by decide
    rw [step_cons hp]
    simp only [stimulate, portAccess, htarget]
    exact issue_ok hw _
  · have hword : BitVec.ofNat 32 (w.toNat % 2 ^ 32) = w := by
      rw [Nat.mod_eq_of_lt w.isLt, BitVec.ofNat_toNat, BitVec.setWidth_eq]
    rw [step_withFetchWord, hword, issue_ok hw]

end Sys2Proof.Machine
end

