-- ==== Sys2Proof/Proofs/Memory.lean ====
section
/-! PROOFS. The family of 20_memory.md: where the address map sends a port access, what the host's
reads and writes do, and the byte and 16-bit views of one stored value. -/

namespace Sys2Proof.Machine

open Sys2Proof

/-! ### Where the address map sends an access (R54) -/

/-- The three windows of R54, each with its base and its size. -/
def bufferWindows : List (Buffer × Nat × Nat) :=
  [(.msg, 0x10000, 0x10000), (.str, 0x20000, 0x10000), (.frm, 0x40000, 0x20000)]

/-- No window reaches down to the registers, and none is shorter than an access. -/
theorem bufferWindows_bounds {b : Buffer} {base size : Nat} (h : (b, base, size) ∈ bufferWindows) :
    0x10000 ≤ base ∧ 4 ≤ size := by
  simp only [bufferWindows, List.mem_cons, List.not_mem_nil, or_false, Prod.mk.injEq] at h
  omega

/-- An address in a window is there at the index from the window's base. -/
theorem windowAt_of_mem {b : Buffer} {base size addr : Nat} (h : (b, base, size) ∈ bufferWindows)
    (hlow : base ≤ addr) (hhigh : addr < base + size) : windowAt addr = some (b, addr - base) := by
  simp only [bufferWindows, List.mem_cons, List.not_mem_nil, or_false, Prod.mk.injEq] at h
  unfold windowAt
  rcases h with ⟨rfl, rfl, rfl⟩ | ⟨rfl, rfl, rfl⟩ | ⟨rfl, rfl, rfl⟩
  · rw [if_pos (by omega)]
  · rw [if_neg (by omega), if_pos (by omega)]
  · rw [if_neg (by omega), if_neg (by omega), if_pos (by omega)]

theorem Width.byteCount_range (width : Width) : 1 ≤ width.byteCount ∧ width.byteCount ≤ 4 := by
  cases width <;> decide

theorem portTarget_offset (r : Reg) : portTarget r.offset .w32 = .register r := by
  simp only [portTarget, registerAt_offset]

theorem portTarget_byteOf {b : Buffer} {base size addr : Nat} (h : (b, base, size) ∈ bufferWindows)
    (hlow : base ≤ addr) (hhigh : addr < base + size) :
    portTarget addr .w8 = .byteOf b (addr - base) := by
  have hreg : registerAt addr .w8 = none := registerAt_eq_none (.inl (by decide))
  simp only [portTarget, hreg, windowAt_of_mem h hlow hhigh]

/-- An access wider than 8 bits whose first or last byte lies in a window is the one R54 gives no
effect. -/
theorem portTarget_wideInWindow {addr : Nat} {width : Width} (hreg : registerAt addr width = none)
    (hwide : width ≠ .w8)
    (htouch : windowAt addr ≠ none ∨ windowAt (addr + width.byteCount - 1) ≠ none) :
    portTarget addr width = .wideInWindow := by
  simp only [portTarget, hreg]
  cases hfirst : windowAt addr <;> cases hlast : windowAt (addr + width.byteCount - 1)
  case none.none => exact absurd htouch (by simp [hfirst, hlast])
  all_goals cases width with
    | w8 => exact absurd rfl hwide
    | w16 | w32 => rfl

/-- A wide access that overlaps a window has its first or its last byte in it, since the window is
longer than the access. -/
theorem portTarget_of_overlap {b : Buffer} {base size addr : Nat} {width : Width}
    (h : (b, base, size) ∈ bufferWindows) (hwide : width ≠ .w8)
    (hlow : base < addr + width.byteCount) (hhigh : addr < base + size) :
    portTarget addr width = .wideInWindow := by
  obtain ⟨hbase, hsize⟩ := bufferWindows_bounds h
  obtain ⟨hpos, hlen⟩ := width.byteCount_range
  refine portTarget_wideInWindow (registerAt_eq_none (.inr (.inr (by omega)))) hwide ?_
  by_cases hfirst : base ≤ addr
  · rw [windowAt_of_mem h hfirst hhigh]
    exact .inl (Option.some_ne_none _)
  · rw [windowAt_of_mem (addr := addr + width.byteCount - 1) h (by omega) (by omega)]
    exact .inr (Option.some_ne_none _)

/-- An access that reaches no register and touches no window reaches nothing. -/
theorem portTarget_nothing {addr : Nat} {width : Width} (hreg : registerAt addr width = none)
    (hfirst : windowAt addr = none) (hlast : windowAt (addr + width.byteCount - 1) = none) :
    portTarget addr width = .nothing := by
  simp only [portTarget, hreg, hfirst, hlast]

theorem portTarget_below_registers_end {addr : Nat} {width : Width} (haddr : addr < 0x28)
    (hunfit : width ≠ .w32 ∨ addr % 4 ≠ 0) : portTarget addr width = .nothing := by
  obtain ⟨-, hlen⟩ := width.byteCount_range
  refine portTarget_nothing (registerAt_eq_none ?_)
    (windowAt_eq_none (.inl (by omega))) (windowAt_eq_none (.inl (by omega)))
  exact hunfit.imp_right .inl

theorem portTarget_reserved {addr : Nat} {width : Width}
    (h : (0x28 ≤ addr ∧ addr + width.byteCount ≤ 0x10000) ∨
      (0x30000 ≤ addr ∧ addr + width.byteCount ≤ 0x40000) ∨ 0x60000 ≤ addr) :
    portTarget addr width = .nothing := by
  obtain ⟨hpos, -⟩ := width.byteCount_range
  exact portTarget_nothing (registerAt_eq_none (.inr (.inr (by omega))))
    (windowAt_eq_none (by omega)) (windowAt_eq_none (by omega))

/-! ### What an access does where it goes -/

section
variable {addr : BitVec 19} {width : Width}

theorem portAccess_register {r : Reg} (h : portTarget addr.toNat width = .register r)
    (s : State) (v : Word) :
    portAccess (.read addr width) s = hostAction (.rd r) s ∧
      portAccess (.write addr width v) s = hostAction (.wr r v) s := by
  simp only [portAccess, h, and_self]

/-- The byte an access writes in a window is the low byte of what it carries. -/
theorem portAccess_byteOf {b : Buffer} {i : Nat} (h : portTarget addr.toNat width = .byteOf b i)
    (s : State) (v : Word) :
    portAccess (.read addr width) s = hostAction (.br b i) s ∧
      portAccess (.write addr width v) s = hostAction (.bw b i (v.extractLsb' 0 8)) s := by
  have hlow : v.setWidth 8 = v.extractLsb' 0 8 := BitVec.setWidth_eq_extractLsb' (by decide)
  simp only [portAccess, h, hlow, and_self]

theorem portAccess_nothing (h : portTarget addr.toNat width = .nothing) (s : State) (v : Word) :
    portAccess (.read addr width) s = .next (s.deliver 0#32) ∧
      portAccess (.write addr width v) s = .next s := by
  simp only [portAccess, h, and_self]

theorem portAccess_wideInWindow (h : portTarget addr.toNat width = .wideInWindow)
    (s : State) (v : Word) :
    portAccess (.read addr width) s = .refused .widePortAccessToBuffer ∧
      portAccess (.write addr width v) s = .refused .widePortAccessToBuffer := by
  simp only [portAccess, h, and_self]

end

/-- Settles O16: each range of R54 has one target, and an access does what its target says. -/
theorem portReachesWhatTheAddressMapSays : Obligations.PortReachesWhatTheAddressMapSays := by
  refine ⟨fun s p rest hs => step_cons hs, fun s addr width v => ⟨?_, ?_, ?_, ?_⟩⟩
  · intro r hr
    exact portAccess_register (by rw [hr, portTarget_offset]) s v
  · intro b base size hwindow
    refine ⟨fun hlow hhigh => ?_, fun hwide hlow hhigh => ?_⟩
    · exact portAccess_byteOf (portTarget_byteOf hwindow hlow hhigh) s v
    · exact portAccess_wideInWindow (portTarget_of_overlap hwindow hwide hlow hhigh) s v
  · intro haddr hunfit
    exact portAccess_nothing (portTarget_below_registers_end haddr hunfit) s v
  · intro hreserved
    exact portAccess_nothing (portTarget_reserved hreserved) s v

/-! ### A stored 16-bit value, read back at both widths -/

/-- A command that makes one test and passes it ends with its writes done. -/
theorem oneTest_passed {p : Bool} {c : Code} {s u : State} (h : p = false) :
    (if p then fail c s else done u) = .next (u.status .ok) := by
  subst h
  rfl

theorem execGetU8_ok {s : State} {off : Nat} (h : off < s.msgLen.toNat) :
    execGetU8 off s = .next ((s.setData ((s.byte .msg off).setWidth 16)).status .ok) :=
  oneTest_passed ((s.outOfRange8_eq_false off).2 h)

theorem execGetU16_ok {s : State} {off : Nat} (h : off + 1 < s.msgLen.toNat) :
    execGetU16 off s = .next ((s.setData (s.half .msg off)).status .ok) :=
  oneTest_passed ((s.outOfRange16_eq_false off).2 h)

/-- The state SET_U16 ends in when its test passes (R90). -/
def State.afterSetU16 (s : State) (off : Nat) : State :=
  (s.put .msg off (bigEndian s.data)).status .ok

theorem execSetU16_ok {s : State} {off : Nat} (h : off + 1 < s.msgLen.toNat) :
    execSetU16 off s = .next (s.afterSetU16 off) :=
  oneTest_passed ((s.outOfRange16_eq_false off).2 h)

@[simp] theorem State.afterSetU16_msgLen (s : State) (off : Nat) :
    (s.afterSetU16 off).msgLen = s.msgLen := by simp [State.afterSetU16]

@[simp] theorem State.afterSetU16_byte_first (s : State) (off : Nat) :
    (s.afterSetU16 off).byte .msg off = highByte s.data :=
  State.byte_put_at s .msg off (bigEndian s.data) 0 (by simp)

@[simp] theorem State.afterSetU16_byte_second (s : State) (off : Nat) :
    (s.afterSetU16 off).byte .msg (off + 1) = lowByte s.data :=
  State.byte_put_at s .msg off (bigEndian s.data) 1 (by simp)

@[simp] theorem State.afterSetU16_half (s : State) (off : Nat) :
    (s.afterSetU16 off).half .msg off = s.data := by
  rw [State.half, State.afterSetU16_byte_first, State.afterSetU16_byte_second, concatBytes_high_low]

/-- Settles O29: SET_U16 keeps MSG_LEN, so the three reads after it pass their tests and find the
two bytes it stored. -/
theorem mixedWidthViewOfAStoredHalf : Obligations.MixedWidthViewOfAStoredHalf := by
  intro s off hfits
  have hlen : (s.afterSetU16 off).msgLen.toNat = s.msgLen.toNat := by rw [State.afterSetU16_msgLen]
  refine ⟨_, _, _, _, execSetU16_ok hfits, s.afterSetU16_byte_first off,
    s.afterSetU16_byte_second off, execGetU8_ok (by omega), ?_, execGetU8_ok (by omega), ?_,
    execGetU16_ok (by omega), ?_⟩
  · rw [State.status_data, State.setData_data, State.afterSetU16_byte_first, highByte]
  · rw [State.status_data, State.setData_data, State.afterSetU16_byte_second, lowByte]
  · rw [State.status_data, State.setData_data, State.afterSetU16_half]

/-! ### The host's reads and writes of registers -/

theorem State.readReg_status_toNat (s : State) :
    (s.readReg .status).toNat = 128 * s.sticky.toNat + s.code.toNat := by
  rw [State.readReg, BitVec.toNat_setWidth_of_le (by decide), statusByte_toNat]

/-- Settles O12: `rd` delivers the register's value, and each register widened to 32 bits keeps its
number. -/
theorem registerReadReturnsTheRegister : Obligations.RegisterReadReturnsTheRegister := by
  refine ⟨fun s r rest hs => step_cons hs, fun s => ⟨rfl, s.readReg_status_toNat, ?_⟩⟩
  refine ⟨?_, ?_, ?_, ?_, ?_, ?_, ?_, ?_⟩ <;> exact BitVec.toNat_setWidth_of_le (by decide)

theorem hostAction_wr_status (s : State) (v : Word) :
    hostAction (.wr .status v) s = .next { s with sticky := s.sticky && !v.getLsbD 7 } := rfl

theorem hostAction_wr_cmd (s : State) (v : Word) : hostAction (.wr .cmd v) s = issue v s := rfl

/-- A write to MSG_LEN, FRM_LEN, CRC or CAP has no effect (R51). -/
theorem hostAction_wr_readOnly {r : Reg} (h : r ∈ [Reg.msgLen, Reg.frmLen, Reg.crc, Reg.cap])
    (s : State) (v : Word) : hostAction (.wr r v) s = .next s := by
  simp only [List.mem_cons, List.not_mem_nil, or_false] at h
  rcases h with rfl | rfl | rfl | rfl <;> rfl

/-- Settles O13, register by register; an offset that names no register is reserved in the address
map. -/
theorem registerWriteActsByRegister : Obligations.RegisterWriteActsByRegister := by
  refine ⟨fun s v => ?_, fun s addr v hlow hhigh haligned => ?_⟩
  · have hhalf : v.setWidth 16 = v.extractLsb' 0 16 := BitVec.setWidth_eq_extractLsb' (by decide)
    have hbyte : v.setWidth 8 = v.extractLsb' 0 8 := BitVec.setWidth_eq_extractLsb' (by decide)
    rw [← hhalf, ← hbyte]
    refine ⟨rfl, rfl, rfl, rfl, fun hset => ?_, fun hclear => ?_, fun i hi => ?_, fun e he => ?_,
      fun r hr => hostAction_wr_readOnly hr s v⟩
    · rw [hostAction_wr_status, hset, Bool.not_true, Bool.and_false]
    · rw [hostAction_wr_status, hclear, Bool.not_false, Bool.and_true]
    · rw [hostAction_wr_cmd, issue_ok hi]
    · rw [hostAction_wr_cmd, issue_error he]
      rfl
  · have hreserved : portTarget addr.toNat .w32 = .nothing :=
      portTarget_reserved (.inl ⟨hlow, by simp only [Width.byteCount]; omega⟩)
    exact (portAccess_nothing hreserved s v).2

/-! ### The host's reads and writes of buffers -/

theorem State.writeBuffer_below {s : State} {b : Buffer} {i : Nat} (h : i < s.capacity b)
    (v : Byte) : s.writeBuffer b i v = s.put b i [v] := if_pos h

theorem State.writeBuffer_above {s : State} {b : Buffer} {i : Nat} (h : s.capacity b ≤ i)
    (v : Byte) : s.writeBuffer b i v = s := if_neg (Nat.not_lt.2 h)

theorem State.readBuffer_below {s : State} {b : Buffer} {i : Nat} (h : i < s.capacity b) :
    s.readBuffer b i = s.byte b i := if_pos h

theorem State.readBuffer_above {s : State} {b : Buffer} {i : Nat} (h : s.capacity b ≤ i) :
    s.readBuffer b i = 0x00#8 := if_neg (Nat.not_lt.2 h)

theorem hostAction_bw (s : State) (b : Buffer) (i : Nat) (v : Byte) :
    hostAction (.bw b i v) s = .next (s.writeBuffer b i v) := rfl

theorem hostAction_br (s : State) (b : Buffer) (i : Nat) :
    hostAction (.br b i) s = .next (s.deliver ((s.readBuffer b i).setWidth 32)) := rfl

/-- Settles O14: below the capacity `bw` is a one-byte write to the buffer, and at or above it
nothing. -/
theorem hostBufferWriteStoresBelowCapacity : Obligations.HostBufferWriteStoresBelowCapacity := by
  intro s b i v
  refine ⟨fun hbelow => ⟨s.put b i [v], ?_, ?_, ?_, State.put_readReg s b i [v],
    State.put_epoch .., State.put_pending .., State.put_returned ..⟩, fun habove => ?_⟩
  · rw [hostAction_bw, State.writeBuffer_below hbelow]
  · exact State.byte_put_at s b i [v] 0 (by simp)
  · exact fun x j hout => State.byte_put_outside s b i [v] hout
  · rw [hostAction_bw, State.writeBuffer_above habove]

/-- Settles O15: `br` delivers the byte below the capacity and 0x00 at or above it. -/
theorem hostBufferReadReturnsTheByte : Obligations.HostBufferReadReturnsTheByte := by
  intro s b i
  refine ⟨fun hbelow => ?_, fun habove => ?_⟩
  · rw [hostAction_br, State.readBuffer_below hbelow]
    rfl
  · rw [hostAction_br, State.readBuffer_above habove]
    rfl

end Sys2Proof.Machine
end

