-- ==== Sys2Proof/Proofs/Encoding.lean ====
section
/-! PROOFS. The family of 30_encoding.md: the decoder answers a command exactly where the word's
opcode, must-be-0 field and operands are that command's, so decoder, encoder, opcode map and
assembler agree, and every other word only reports. -/

namespace Sys2Proof

/-! ### Fields of a word (R66) -/

theorem opcField_and (x y : Word) : opcField (x &&& y) = opcField x &&& opcField y :=
  BitVec.extractLsb'_and

theorem lField_and (x y : Word) : lField (x &&& y) = lField x &&& lField y := BitVec.extractLsb'_and

theorem aField_or (x y : Word) : aField (x ||| y) = aField x ||| aField y := BitVec.extractLsb'_or

theorem bField_or (x y : Word) : bField (x ||| y) = bField x ||| bField y := BitVec.extractLsb'_or

theorem lField_or (x y : Word) : lField (x ||| y) = lField x ||| lField y := BitVec.extractLsb'_or

/-- OPC and L cover the word. -/
theorem word_ext {w w' : Word} (hopc : opcField w = opcField w') (hl : lField w = lField w') :
    w = w' := by
  have hopc := congrArg BitVec.toNat hopc
  have hl := congrArg BitVec.toNat hl
  simp only [opcField, lField, BitVec.extractLsb'_toNat, Nat.shiftRight_eq_div_pow] at hopc hl
  exact BitVec.eq_of_toNat_eq (by omega)

/-- L is A above B. -/
theorem lField_ext {w w' : Word} (ha : aField w = aField w') (hb : bField w = bField w') :
    lField w = lField w' := by
  have ha := congrArg BitVec.toNat ha
  have hb := congrArg BitVec.toNat hb
  simp only [aField, bField, BitVec.extractLsb'_toNat, Nat.shiftRight_eq_div_pow] at ha hb
  apply BitVec.eq_of_toNat_eq
  simp only [lField, BitVec.extractLsb'_toNat, Nat.shiftRight_eq_div_pow]
  omega

/-- A field that a mask covers is 0 where the masked word is. -/
theorem extractLsb'_eq_zero_of_and {w m : Word} {start len : Nat}
    (hm : m.extractLsb' start len = BitVec.allOnes len) (h : w &&& m = 0#32) :
    w.extractLsb' start len = 0#len := by
  simpa [BitVec.extractLsb'_and, hm] using congrArg (BitVec.extractLsb' start len) h

theorem bField_eq_zero_of_formatA {w : Word} (h : w &&& Format.a.mustBeZero = 0#32) :
    bField w = 0#8 := extractLsb'_eq_zero_of_and (by decide) h

theorem aField_eq_zero_of_formatB {w : Word} (h : w &&& Format.b.mustBeZero = 0#32) :
    aField w = 0#16 := extractLsb'_eq_zero_of_and (by decide) h

theorem lField_eq_zero_of_formatN {w : Word} (h : w &&& Format.n.mustBeZero = 0#32) :
    lField w = 0#24 := extractLsb'_eq_zero_of_and (by decide) h

/-! ### What R71 says of a command -/

/-- The OPC column of R71. -/
def Instr.opcode : Instr → Byte
  | .msgCreate _ => 0x01#8
  | .msgWrap _ => 0x02#8
  | .setU8 _ _ => 0x10#8
  | .getU8 _ => 0x11#8
  | .setU16 _ => 0x12#8
  | .getU16 _ => 0x13#8
  | .setStr _ => 0x14#8
  | .getStr _ => 0x15#8
  | .crc16 => 0x20#8
  | .xorBytes _ => 0x21#8
  | .encodeFrame => 0x30#8
  | .frmWrap _ => 0x31#8
  | .decodeFrame => 0x32#8

/-- The format column of R71. -/
def Instr.format : Instr → Format
  | .msgCreate _ | .msgWrap _ | .getU8 _ | .setU16 _ | .getU16 _ | .setStr _ | .getStr _ => .a
  | .setU8 _ _ => .ab
  | .crc16 | .encodeFrame | .decodeFrame => .n
  | .xorBytes _ => .b
  | .frmWrap _ => .l

/-- The same command with its operands taken from the fields of a word (R68, R69, R70). -/
def Instr.withOperandsOf (w : Word) : Instr → Instr
  | .msgCreate _ => .msgCreate (aField w).toNat
  | .msgWrap _ => .msgWrap (aField w).toNat
  | .setU8 _ _ => .setU8 (aField w).toNat (bField w).toNat
  | .getU8 _ => .getU8 (aField w).toNat
  | .setU16 _ => .setU16 (aField w).toNat
  | .getU16 _ => .getU16 (aField w).toNat
  | .setStr _ => .setStr (aField w).toNat
  | .getStr _ => .getStr (aField w).toNat
  | .crc16 => .crc16
  | .xorBytes _ => .xorBytes (bField w).toNat
  | .encodeFrame => .encodeFrame
  | .frmWrap _ => .frmWrap (lField w).toNat
  | .decodeFrame => .decodeFrame

@[simp] theorem Instr.row_withOperandsOf (i : Instr) (w : Word) :
    (i.withOperandsOf w).row = i.row := by cases i <;> rfl

theorem fitsA_toNat (a : Half) : fitsA a.toNat = true := decide_eq_true (by omega)

theorem fitsB_toNat (b : Byte) : fitsB b.toNat = true := decide_eq_true (by omega)

theorem fitsL_toNat (l : Long) : fitsL l.toNat = true := decide_eq_true (by omega)

/-- Operands that were read from a word have an encoding. -/
theorem Instr.wellFormed_withOperandsOf (i : Instr) (w : Word) :
    (i.withOperandsOf w).wellFormed = true := by
  cases i with
  | msgCreate | msgWrap | getU8 | setU16 | getU16 | setStr | getStr => exact fitsA_toNat _
  | setU8 => exact Bool.and_eq_true_iff.2 ⟨fitsA_toNat _, fitsB_toNat _⟩
  | xorBytes => exact fitsB_toNat _
  | frmWrap => exact fitsL_toNat _
  | crc16 | encodeFrame | decodeFrame => rfl

/-! ### The decoder -/

/-- The decoder's arm for the opcode of a command. -/
theorem decode_eq_checkZero {w : Word} {i : Instr} (h : opcField w = i.opcode) :
    decode w = checkZero i.format w (i.withOperandsOf w) := by
  unfold decode
  rw [h]
  cases i <;> rfl

theorem opcField_of_decode {w : Word} {i : Instr} (h : decode w = .ok i) :
    opcField w = i.opcode := by
  rcases decode_inv h with h | h | h | h | h | h | h | h | h | h | h | h | h <;>
    simp only [h, Instr.opcode]

/-- A word decodes to a command exactly when its opcode is the command's, the must-be-0 field of the
command's format is 0, and the command's operands are the word's fields (R71, R73). -/
theorem decode_eq_ok_iff {w : Word} {i : Instr} :
    decode w = .ok i ↔
      opcField w = i.opcode ∧ w &&& i.format.mustBeZero = 0#32 ∧ i.withOperandsOf w = i := by
  constructor
  · intro h
    have hopc := opcField_of_decode h
    rw [decode_eq_checkZero hopc] at h
    obtain ⟨hzero, hoperands⟩ := checkZero_inv h
    exact ⟨hopc, hzero, hoperands.symm⟩
  · rintro ⟨hopc, hzero, hoperands⟩
    rw [decode_eq_checkZero hopc, checkZero_ok _ hzero, hoperands]

/-- No two words decode to the same command: opcode, must-be-0 field and operands are all of the
word. -/
theorem eq_of_decode_eq {w w' : Word} {i : Instr} (h : decode w = .ok i) (h' : decode w' = .ok i) :
    w = w' := by
  obtain ⟨hopc, hzero, hoperands⟩ := decode_eq_ok_iff.1 h
  obtain ⟨hopc', hzero', hoperands'⟩ := decode_eq_ok_iff.1 h'
  have hsame := hoperands.trans hoperands'.symm
  refine word_ext (hopc.trans hopc'.symm) ?_
  cases i with
  | msgCreate | msgWrap | getU8 | setU16 | getU16 | setStr | getStr =>
    injection hsame with ha
    exact lField_ext (BitVec.eq_of_toNat_eq ha)
      ((bField_eq_zero_of_formatA hzero).trans (bField_eq_zero_of_formatA hzero').symm)
  | setU8 =>
    injection hsame with ha hb
    exact lField_ext (BitVec.eq_of_toNat_eq ha) (BitVec.eq_of_toNat_eq hb)
  | xorBytes =>
    injection hsame with hb
    exact lField_ext
      ((aField_eq_zero_of_formatB hzero).trans (aField_eq_zero_of_formatB hzero').symm)
      (BitVec.eq_of_toNat_eq hb)
  | frmWrap =>
    injection hsame with hl
    exact BitVec.eq_of_toNat_eq hl
  | crc16 | encodeFrame | decodeFrame =>
    exact (lField_eq_zero_of_formatN hzero).trans (lField_eq_zero_of_formatN hzero').symm

/-! ### The opcode map (R71) -/

/-- A row's match is the opcode over zeros, and its mask is OPC and the must-be-0 field. -/
theorem Instr.row_eq (i : Instr) :
    i.row = ⟨i.opcode ++ 0#24, 0xFF000000#32 ||| i.format.mustBeZero⟩ := by
  cases i <;> simp only [Instr.row, Instr.opcode, Instr.format] <;> decide

/-- A word selects a command's row exactly when its opcode is the command's and the must-be-0 field
of the command's format is 0. -/
theorem selects_row_iff (w : Word) (i : Instr) :
    w &&& i.row.maskWord = i.row.matchWord ↔
      opcField w = i.opcode ∧ w &&& i.format.mustBeZero = 0#32 := by
  rw [i.row_eq]
  generalize i.opcode = opc
  generalize i.format = f
  have hopcMask : opcField (0xFF000000#32 ||| f.mustBeZero) = BitVec.allOnes 8 := by
    cases f <;> decide
  have hlMask : lField (0xFF000000#32 ||| f.mustBeZero) = lField f.mustBeZero := by
    cases f <;> decide
  have hopcZero : opcField f.mustBeZero = 0#8 := by cases f <;> decide
  have hopcMatch : opcField (opc ++ 0#24) = opc := BitVec.extractLsb'_append_eq_left
  have hlMatch : lField (opc ++ 0#24) = 0#24 := BitVec.extractLsb'_append_eq_right
  constructor
  · intro h
    have hopc := congrArg opcField h
    have hl := congrArg lField h
    rw [opcField_and, hopcMask, hopcMatch, BitVec.and_allOnes] at hopc
    rw [lField_and, hlMask, hlMatch] at hl
    refine ⟨hopc, word_ext ?_ ?_⟩
    · rw [opcField_and, hopcZero, BitVec.and_zero]
      rfl
    · rw [lField_and, hl]
      rfl
  · rintro ⟨hopc, hzero⟩
    refine word_ext ?_ ?_
    · rw [opcField_and, hopcMask, hopcMatch, BitVec.and_allOnes, hopc]
    · rw [lField_and, hlMask, hlMatch, ← lField_and, hzero]
      rfl

theorem decode_selects_row {w : Word} {i : Instr} (h : decode w = .ok i) :
    w &&& i.row.maskWord = i.row.matchWord := by
  obtain ⟨hopc, hzero, -⟩ := decode_eq_ok_iff.1 h
  exact (selects_row_iff w i).2 ⟨hopc, hzero⟩

/-- A word that selects a command's row decodes, to that command with the word's operands. -/
theorem decode_of_selects_row {w : Word} {i : Instr} (h : w &&& i.row.maskWord = i.row.matchWord) :
    decode w = .ok (i.withOperandsOf w) := by
  obtain ⟨hopc, hzero⟩ := (selects_row_iff w i).1 h
  rw [decode_eq_checkZero hopc, checkZero_ok _ hzero]

/-- The opcode map holds the commands' rows and no others. -/
theorem mem_opcodeRows_iff {r : OpcodeRow} : r ∈ opcodeRows ↔ ∃ i : Instr, i.row = r := by
  constructor
  · intro h
    simp only [opcodeRows, List.mem_cons, List.not_mem_nil, or_false] at h
    rcases h with h | h | h | h | h | h | h | h | h | h | h | h | h <;> exact ⟨_, h.symm⟩
  · rintro ⟨i, rfl⟩
    cases i <;> simp [opcodeRows, Instr.row]

/-! ### The encoder -/

/-- The word of a well-formed command selects the command's row. -/
theorem encode_selects_row {i : Instr} (h : i.wellFormed = true) :
    encode i &&& i.row.maskWord = i.row.matchWord := by
  have hrow : Laws.RowMatch.Statement i := by
    cases i with
    | msgCreate len => exact Laws.RowMatch.msgCreate len
    | msgWrap len => exact Laws.RowMatch.msgWrap len
    | setU8 off val => exact Laws.RowMatch.setU8 off val
    | getU8 off => exact Laws.RowMatch.getU8 off
    | setU16 off => exact Laws.RowMatch.setU16 off
    | getU16 off => exact Laws.RowMatch.getU16 off
    | setStr off => exact Laws.RowMatch.setStr off
    | getStr off => exact Laws.RowMatch.getStr off
    | crc16 => exact Laws.RowMatch.crc16
    | xorBytes key => exact Laws.RowMatch.xorBytes key
    | encodeFrame => exact Laws.RowMatch.encodeFrame
    | frmWrap len => exact Laws.RowMatch.frmWrap len
    | decodeFrame => exact Laws.RowMatch.decodeFrame
  exact beq_iff_eq.1 (hrow h)

/-! What the fields hold of an operand at its place in the word. -/

theorem aField_shifted {off : Nat} (h : fitsA off = true) :
    (aField (BitVec.ofNat 32 off <<< 8)).toNat = off := by
  have hoff : off ≤ 65535 := of_decide_eq_true h
  simp only [aField, BitVec.extractLsb'_toNat, BitVec.toNat_shiftLeft, BitVec.toNat_ofNat,
    Nat.shiftLeft_eq, Nat.shiftRight_eq_div_pow]
  omega

theorem bField_shifted (off : Nat) : bField (BitVec.ofNat 32 off <<< 8) = 0#8 := by
  apply BitVec.eq_of_toNat_eq
  simp only [bField, BitVec.extractLsb'_toNat, BitVec.toNat_shiftLeft, BitVec.toNat_ofNat,
    Nat.shiftLeft_eq, Nat.shiftRight_eq_div_pow]
  omega

theorem aField_ofNat {val : Nat} (h : fitsB val = true) : aField (BitVec.ofNat 32 val) = 0#16 := by
  have hval : val ≤ 255 := of_decide_eq_true h
  apply BitVec.eq_of_toNat_eq
  simp only [aField, BitVec.extractLsb'_toNat, BitVec.toNat_ofNat, Nat.shiftRight_eq_div_pow]
  omega

theorem bField_ofNat {val : Nat} (h : fitsB val = true) :
    (bField (BitVec.ofNat 32 val)).toNat = val := by
  have hval : val ≤ 255 := of_decide_eq_true h
  simp only [bField, BitVec.extractLsb'_toNat, BitVec.toNat_ofNat, Nat.shiftRight_eq_div_pow]
  omega

theorem lField_ofNat {len : Nat} (h : fitsL len = true) :
    (lField (BitVec.ofNat 32 len)).toNat = len := by
  have hlen : len ≤ 16777215 := of_decide_eq_true h
  simp only [lField, BitVec.extractLsb'_toNat, BitVec.toNat_ofNat, Nat.shiftRight_eq_div_pow]
  omega

/-- Field A of a word of format A, whose opcode bits `opc` leave the field 0. -/
theorem aField_formatA {opc : Word} {off : Nat} (hopc : aField opc = 0#16) (h : fitsA off = true) :
    (aField (opc ||| (BitVec.ofNat 32 off <<< 8))).toNat = off := by
  rw [aField_or, hopc, BitVec.zero_or, aField_shifted h]

/-- A well-formed command's operands stand in the fields of its word (R76). -/
theorem withOperandsOf_encode {i : Instr} (h : i.wellFormed = true) :
    i.withOperandsOf (encode i) = i := by
  cases i with
  | msgCreate => exact congrArg Instr.msgCreate (aField_formatA (by decide) h)
  | msgWrap => exact congrArg Instr.msgWrap (aField_formatA (by decide) h)
  | setU8 off val =>
    obtain ⟨hoff, hval⟩ := Bool.and_eq_true_iff.1 (show (fitsA off && fitsB val) = true from h)
    have ha : (aField (encode (.setU8 off val))).toNat = off := by
      rw [encode, aField_or, aField_ofNat hval, BitVec.or_zero]
      exact aField_formatA (by decide) hoff
    have hopc : bField 0x10000000#32 = 0#8 := by decide
    have hb : (bField (encode (.setU8 off val))).toNat = val := by
      rw [encode, bField_or, bField_or, bField_shifted, hopc, BitVec.or_zero, BitVec.zero_or,
        bField_ofNat hval]
    exact congrArg₂ Instr.setU8 ha hb
  | getU8 => exact congrArg Instr.getU8 (aField_formatA (by decide) h)
  | setU16 => exact congrArg Instr.setU16 (aField_formatA (by decide) h)
  | getU16 => exact congrArg Instr.getU16 (aField_formatA (by decide) h)
  | setStr => exact congrArg Instr.setStr (aField_formatA (by decide) h)
  | getStr => exact congrArg Instr.getStr (aField_formatA (by decide) h)
  | xorBytes key =>
    have hopc : bField 0x21000000#32 = 0#8 := by decide
    have hb : (bField (encode (.xorBytes key))).toNat = key := by
      rw [encode, bField_or, hopc, BitVec.zero_or, bField_ofNat h]
    exact congrArg Instr.xorBytes hb
  | frmWrap len =>
    have hopc : lField 0x31000000#32 = 0#24 := by decide
    have hl : (lField (encode (.frmWrap len))).toNat = len := by
      rw [encode, lField_or, hopc, BitVec.zero_or, lField_ofNat h]
    exact congrArg Instr.frmWrap hl
  | crc16 | encodeFrame | decodeFrame => rfl

/-! ### Decoder, encoder and opcode map agree -/

/-- Settles O1: the word selects the command's row, and its fields hold the command's operands. -/
theorem decodeOfEncodeIsTheCommand : Obligations.DecodeOfEncodeIsTheCommand := by
  intro i h
  rw [decode_of_selects_row (encode_selects_row h), withOperandsOf_encode h]

/-- Settles O2: operands read from a word fit their fields, so the command has a word that decodes
to it, and no other word does. -/
theorem decodedWordIsTheCommandsOnlyWord : Obligations.DecodedWordIsTheCommandsOnlyWord := by
  intro w i h
  obtain ⟨-, -, hoperands⟩ := decode_eq_ok_iff.1 h
  have hwf : i.wellFormed = true := hoperands ▸ i.wellFormed_withOperandsOf w
  exact ⟨hwf, eq_of_decode_eq (decodeOfEncodeIsTheCommand i hwf) h⟩

/-- Settles O3: a row belongs to a command, and a word that selects it decodes to a command of that
row; the decoder has one answer, so the word selects no other row. -/
theorem decoderFollowsTheOpcodeMap : Obligations.DecoderFollowsTheOpcodeMap := by
  refine ⟨fun w => ⟨?_, ?_⟩, fun w i h => ⟨mem_opcodeRows_iff.2 ⟨i, rfl⟩, decode_selects_row h⟩, ?_⟩
  · rintro ⟨i, h⟩
    exact ⟨i.row, mem_opcodeRows_iff.2 ⟨i, rfl⟩, decode_selects_row h⟩
  · rintro ⟨r, hr, hselects⟩
    obtain ⟨i, rfl⟩ := mem_opcodeRows_iff.1 hr
    exact ⟨_, decode_of_selects_row hselects⟩
  · intro w r hr r' hr' hselects hselects'
    obtain ⟨i, rfl⟩ := mem_opcodeRows_iff.1 hr
    obtain ⟨j, rfl⟩ := mem_opcodeRows_iff.1 hr'
    have hsame : i.withOperandsOf w = j.withOperandsOf w :=
      Except.ok.inj ((decode_of_selects_row hselects).symm.trans (decode_of_selects_row hselects'))
    rw [← i.row_withOperandsOf w, hsame, j.row_withOperandsOf w]

/-- A worked encoding holds the other way round by the round trip of O1. -/
theorem worked_encoding {i : Instr} {w : Word} (hwf : i.wellFormed = true) (hw : encode i = w) :
    encode i = w ∧ decode w = .ok i := ⟨hw, hw ▸ decodeOfEncodeIsTheCommand i hwf⟩

/-- Settles O4, each encoding by evaluation and its decoding by O1. -/
theorem workedEncodingsHold : Obligations.WorkedEncodingsHold :=
  ⟨worked_encoding rfl rfl, worked_encoding rfl rfl, worked_encoding rfl rfl,
    worked_encoding rfl rfl, worked_encoding rfl rfl⟩

end Sys2Proof

namespace Sys2Proof.Machine

open Sys2Proof

/-! ### Illegal words (R72, R73) -/

/-- A word that no command's decoding answers only reports. -/
theorem issue_illegal {w : Word} (h : ∀ i, decode w ≠ .ok i) (s : State) :
    issue w s = .next { s with code := 5#4, sticky := true } := by
  cases hw : decode w with
  | ok i => exact absurd hw (h i)
  | error e => exact issue_error hw s

/-- No command's opcode lies in an unassigned range (R72). -/
theorem opcode_assigned (i : Instr) :
    ¬ (i.opcode.toNat = 0x00 ∨ (0x03 ≤ i.opcode.toNat ∧ i.opcode.toNat ≤ 0x0F) ∨
      (0x16 ≤ i.opcode.toNat ∧ i.opcode.toNat ≤ 0x1F) ∨
      (0x22 ≤ i.opcode.toNat ∧ i.opcode.toNat ≤ 0x2F) ∨
      (0x33 ≤ i.opcode.toNat ∧ i.opcode.toNat ≤ 0xFF)) := by
  cases i <;> simp [Instr.opcode]

/-- Settles O7: a word that decodes has the opcode of a command, and no command's is unassigned. -/
theorem unassignedOpcodeOnlyReports : Obligations.UnassignedOpcodeOnlyReports := by
  rintro w s k rfl hunassigned
  refine issue_illegal (fun i hi => ?_) s
  have hopc : w.extractLsb' 24 8 = i.opcode := opcField_of_decode hi
  rw [hopc] at hunassigned
  exact opcode_assigned i hunassigned

/-! The format that the opcode of a command fixes (R71). -/

theorem format_a_of_opcode {i : Instr}
    (h : i.opcode.toNat ∈ [0x01, 0x02, 0x11, 0x12, 0x13, 0x14, 0x15]) : i.format = .a := by
  revert h
  cases i <;> simp [Instr.opcode, Instr.format]

theorem format_b_of_opcode {i : Instr} (h : i.opcode.toNat = 0x21) : i.format = .b := by
  revert h
  cases i <;> simp [Instr.opcode, Instr.format]

theorem format_n_of_opcode {i : Instr} (h : i.opcode.toNat ∈ [0x20, 0x30, 0x32]) :
    i.format = .n := by
  revert h
  cases i <;> simp [Instr.opcode, Instr.format]

/-- Settles O8: the opcode fixes the format, and a word that decodes has the must-be-0 field of its
format 0. -/
theorem nonzeroMustBeZeroFieldOnlyReports : Obligations.NonzeroMustBeZeroFieldOnlyReports := by
  have hreports : ∀ (w : Word) (s : State) (k : Nat), (w.extractLsb' 24 8).toNat = k →
      ((k ∈ [0x01, 0x02, 0x11, 0x12, 0x13, 0x14, 0x15] ∧ w.extractLsb' 0 8 ≠ 0#8) ∨
        (k = 0x21 ∧ w.extractLsb' 8 16 ≠ 0#16) ∨
        (k ∈ [0x20, 0x30, 0x32] ∧ w.extractLsb' 0 24 ≠ 0#24)) →
      issue w s = .next { s with code := 5#4, sticky := true } := by
    rintro w s k rfl hnonzero
    refine issue_illegal (fun i hi => ?_) s
    obtain ⟨hopc, hzero, -⟩ := decode_eq_ok_iff.1 hi
    rw [show w.extractLsb' 24 8 = i.opcode from hopc] at hnonzero
    rcases hnonzero with ⟨hk, hb⟩ | ⟨hk, ha⟩ | ⟨hk, hl⟩
    · rw [format_a_of_opcode hk] at hzero
      exact hb (bField_eq_zero_of_formatA hzero)
    · rw [format_b_of_opcode hk] at hzero
      exact ha (aField_eq_zero_of_formatB hzero)
    · rw [format_n_of_opcode hk] at hzero
      exact hl (lField_eq_zero_of_formatN hzero)
  refine ⟨hreports, fun s w hw => hreports w s _ rfl ?_⟩
  simp only [List.mem_cons, List.not_mem_nil, or_false] at hw
  rcases hw with rfl | rfl | rfl <;> decide

/-! ### The assembler (R76, R77) -/

theorem assemble_eq_some {i : Instr} {w : Word} (h : assemble i = some w) :
    i.wellFormed = true ∧ encode i = w := by
  simpa [assemble] using h

theorem assemble_eq_none_iff (i : Instr) : assemble i = none ↔ i.wellFormed = false := by
  simp [assemble]

theorem fitsA_eq_false (n : Nat) : fitsA n = false ↔ 65535 < n := by simp [fitsA]

theorem fitsB_eq_false (n : Nat) : fitsB n = false ↔ 255 < n := by simp [fitsB]

theorem fitsL_eq_false (n : Nat) : fitsL n = false ↔ 16777215 < n := by simp [fitsL]

/-- Settles O6: an assembled word decodes to its command (O1), which the step then runs; the
assembler refuses an operand exactly where the test of its field fails. -/
theorem assembledLineRunsAsItsCommand : Obligations.AssembledLineRunsAsItsCommand := by
  refine ⟨fun i w s rest hassembled hpending => ?_, ?_, ?_, fun n k => ?_, ?_, ?_, ?_, ?_, ?_,
    fun k => ?_, fun n => ?_, rfl, rfl, rfl⟩
  · obtain ⟨hwf, rfl⟩ := assemble_eq_some hassembled
    exact (step_cons hpending).trans (issue_ok (decodeOfEncodeIsTheCommand i hwf) _)
  case refine_4 =>
    rw [assemble_eq_none_iff, Instr.wellFormed, Bool.and_eq_false_iff, fitsA_eq_false,
      fitsB_eq_false]
  case refine_10 => exact (assemble_eq_none_iff _).trans (fitsB_eq_false k)
  case refine_11 => exact (assemble_eq_none_iff _).trans (fitsL_eq_false n)
  all_goals exact fun n => (assemble_eq_none_iff _).trans (fitsA_eq_false n)

end Sys2Proof.Machine
end

