-- ==== Sys2Proof/Proofs/MessageBuffer.lean ====
section
/-! PROOFS. The family of 40_buffer.md: what each command of the Message buffer does when its test
passes. What it leaves as it was follows from the writes that R40's table lists for it. -/

namespace Sys2Proof.Machine

open Sys2Proof

/-! ### What a command leaves as it was, from the writes listed for it (R40) -/

/-- A command that reaches `status(OK)` in state `u` has ended with OK; STICKY is as it was in `u`,
and no register changed but those listed for the command. -/
theorem endedOk_of_exec {i : Instr} {s u : State} (hexec : exec i s = .next (u.status .ok))
    (hsticky : u.sticky = s.sticky) : EndedOk (writesReg i) s (u.status .ok) := by
  obtain ⟨hregs, -, hepoch, hpending, hreturned⟩ := exec_writesListed i s _ hexec
  exact ⟨rfl, hsticky, hregs, hepoch, hpending, hreturned⟩

/-- A command whose listed bytes lie in one range keeps every byte outside it. -/
theorem bytesKeptOutside_of_exec {i : Instr} {s t : State} {b : Buffer} {k n : Nat}
    (hexec : exec i s = .next t)
    (hlisted : ∀ x j, writesByte i s x j → x = b ∧ k ≤ j ∧ j < k + n) :
    BytesKeptOutside b k n s t :=
  fun x j hout => (exec_writesListed i s t hexec).bytes x j fun hw => hout (hlisted x j hw)

/-- A command with no byte listed keeps every byte. -/
theorem bytesKept_of_exec {i : Instr} {s t : State} (hexec : exec i s = .next t)
    (hnone : ∀ x j, ¬ writesByte i s x j) : BytesKept s t :=
  fun x j => (exec_writesListed i s t hexec).bytes x j (hnone x j)

/-! ### Commands whose test passes, and the bytes they write -/

theorem execMsgCreate_ok {s : State} {len : Nat} (h : len ≤ s.cap.toNat) :
    execMsgCreate len s = .next
      (((s.put .msg 0 (List.replicate len 0#8)).setMsgLen (halfOperand len)).status .ok) :=
  oneTest_passed ((s.overflows_eq_false .msg len).2 h)

theorem execMsgWrap_ok {s : State} {len : Nat} (h : len ≤ s.cap.toNat) :
    execMsgWrap len s = .next ((s.setMsgLen (halfOperand len)).status .ok) :=
  oneTest_passed ((s.overflows_eq_false .msg len).2 h)

theorem execSetU8_ok {s : State} {off : Nat} (val : Nat) (h : off < s.msgLen.toNat) :
    execSetU8 off val s = .next ((s.put .msg off [byteOperand val]).status .ok) :=
  oneTest_passed ((s.outOfRange8_eq_false off).2 h)

theorem execSetStr_ok {s : State} {off : Nat} (h : off + s.count.toNat < s.msgLen.toNat) :
    execSetStr off s =
      .next ((s.put .msg off (s.bytes .str 0 s.count.toNat)).status .ok) :=
  oneTest_passed ((s.outOfRangeStr_eq_false off).2 h)

theorem execGetStr_ok {s : State} {off : Nat} (h : off + s.count.toNat < s.msgLen.toNat) :
    execGetStr off s =
      .next ((s.put .str 0 (s.bytes .msg off s.count.toNat)).status .ok) :=
  oneTest_passed ((s.outOfRangeStr_eq_false off).2 h)

/-- After a range of a buffer is filled with one value, each byte in the range holds it. -/
theorem State.byte_put_replicate (s : State) (b : Buffer) (v : Byte) {i n j : Nat} (hlow : i ≤ j)
    (hhigh : j < i + n) : (s.put b i (List.replicate n v)).byte b j = v := by
  rw [State.byte_put, dif_pos ⟨rfl, hlow, by simpa using hhigh⟩, List.getElem_replicate]

/-- After a range of bytes is copied to index `i`, each is found at its place there. -/
theorem State.byte_put_bytes (s : State) (b x : Buffer) (i k : Nat) {n j : Nat} (hj : j < n) :
    (s.put b i (s.bytes x k n)).byte b (i + j) = s.byte x (k + j) := by
  rw [State.byte_put_at _ _ _ _ _ (by simpa using hj), State.bytes_getElem]

/-! ### The Message's length -/

/-- Settles O22: MSG_CREATE's one write to MSG is `len` zeros from index 0, and a length within
MSG_CAP is held in MSG_LEN without loss. -/
theorem msgCreateMakesAZeroMessage : Obligations.MsgCreateMakesAZeroMessage := by
  intro s len hlen
  have hexec : exec (.msgCreate len) s = .next _ := execMsgCreate_ok hlen
  refine ⟨_, hexec, endedOk_of_exec hexec (s.put_sticky ..), halfOperand_toNat_of_le hlen,
    fun i hi => s.byte_put_replicate .msg 0#8 i.zero_le (by omega),
    bytesKeptOutside_of_exec hexec ?_⟩
  rintro x j ⟨rfl, hj⟩
  exact ⟨rfl, j.zero_le, by omega⟩

/-- Settles O23: MSG_WRAP writes MSG_LEN only. -/
theorem msgWrapAdoptsTheBytes : Obligations.MsgWrapAdoptsTheBytes := by
  intro s len hlen
  have hexec : exec (.msgWrap len) s = .next _ := execMsgWrap_ok hlen
  exact ⟨_, hexec, endedOk_of_exec hexec rfl, halfOperand_toNat_of_le hlen,
    bytesKept_of_exec hexec fun _ _ => id⟩

/-! ### The field accessors -/

/-- Settles O25: the one byte SET_U8 writes is at its offset. -/
theorem setU8StoresOneByte : Obligations.SetU8StoresOneByte := by
  intro s off val hfits
  have hexec : exec (.setU8 off val) s = .next _ := execSetU8_ok val hfits
  refine ⟨_, hexec, endedOk_of_exec hexec (s.put_sticky ..),
    s.byte_put_at .msg off [byteOperand val] 0 (by simp), bytesKeptOutside_of_exec hexec ?_⟩
  rintro x j ⟨rfl, rfl⟩
  exact ⟨rfl, le_rfl, j.lt_succ_self⟩

/-- Settles O26: DATA is wider than a byte, so it holds the byte's number. -/
theorem getU8LoadsOneByte : Obligations.GetU8LoadsOneByte := by
  intro s off hfits
  have hexec : exec (.getU8 off) s = .next _ := execGetU8_ok hfits
  exact ⟨_, hexec, endedOk_of_exec hexec rfl, BitVec.toNat_setWidth_of_le (by decide),
    bytesKept_of_exec hexec fun _ _ => id⟩

/-- Settles O27: the two bytes SET_U16 writes are DATA's high byte and, one index further, its low
byte, whatever the parity of the offset (R55). -/
theorem setU16StoresBigEndian : Obligations.SetU16StoresBigEndian := by
  intro s off hfits
  have hexec : exec (.setU16 off) s = .next (s.afterSetU16 off) := execSetU16_ok hfits
  refine ⟨_, hexec, endedOk_of_exec hexec (s.put_sticky ..), s.afterSetU16_byte_first off,
    s.afterSetU16_byte_second off, bytesKeptOutside_of_exec hexec ?_⟩
  rintro x j ⟨rfl, hj⟩
  exact ⟨rfl, by omega, by omega⟩

/-- Settles O28: DATA is the two bytes put together, the first the more significant. -/
theorem getU16LoadsBigEndian : Obligations.GetU16LoadsBigEndian := by
  intro s off hfits
  have hexec : exec (.getU16 off) s = .next _ := execGetU16_ok hfits
  exact ⟨_, hexec, endedOk_of_exec hexec rfl, concatBytes_toNat _ _,
    bytesKept_of_exec hexec fun _ _ => id⟩

/-! ### The string accessors -/

/-- Settles O30: SET_STR copies a range of STR to the offset in MSG. -/
theorem setStrCopiesTheText : Obligations.SetStrCopiesTheText := by
  intro s off hfits
  have hexec : exec (.setStr off) s = .next _ := execSetStr_ok hfits
  refine ⟨_, hexec, endedOk_of_exec hexec (s.put_sticky ..), fun i hi => ?_,
    bytesKeptOutside_of_exec hexec fun _ _ => id⟩
  rw [State.status_byte, State.byte_put_bytes s .msg .str off 0 hi, Nat.zero_add]

/-- Settles O31: GET_STR copies a range of MSG to the start of STR. -/
theorem getStrCopiesTheText : Obligations.GetStrCopiesTheText := by
  intro s off hfits
  have hexec : exec (.getStr off) s = .next _ := execGetStr_ok hfits
  refine ⟨_, hexec, endedOk_of_exec hexec (s.put_sticky ..), fun i hi => ?_,
    bytesKeptOutside_of_exec hexec ?_⟩
  · have hcopied := s.byte_put_bytes .str .msg 0 off hi
    rwa [Nat.zero_add] at hcopied
  · rintro x j ⟨rfl, hj⟩
    exact ⟨rfl, j.zero_le, by omega⟩

end Sys2Proof.Machine
end

/-! PROOFS. The family of 41_checksum_cipher.md: the CRC is linear in the bits of its accumulator, so
one look-up a byte gives it; the cipher's laws, for the byte sequence and for the command. -/

namespace Sys2Proof.Machine

open Sys2Proof

/-! ### The rounds of the CRC (R110) -/

/-- What a round XORs into the shifted accumulator, from the bit shifted out. -/
def crcFeedback (bit : Bool) : Half := if bit then 0xA001#16 else 0#16

theorem crcRound_eq (acc : Half) : crcRound acc = acc >>> 1 ^^^ crcFeedback (acc.getLsbD 0) := by
  rw [crcRound, crcFeedback]
  split
  · rfl
  · exact BitVec.xor_zero.symm

theorem crcFeedback_xor : ∀ p q : Bool, crcFeedback (p ^^ q) = crcFeedback p ^^^ crcFeedback q := by
  decide

/-- A round is linear: XOR passes through the shift and through the feedback. -/
theorem crcRound_xor (a b : Half) : crcRound (a ^^^ b) = crcRound a ^^^ crcRound b := by
  simp only [crcRound_eq, BitVec.getLsbD_xor, crcFeedback_xor, BitVec.ushiftRight_xor_distrib]
  ac_rfl

theorem crcRounds_xor (n : Nat) (a b : Half) :
    crcRounds n (a ^^^ b) = crcRounds n a ^^^ crcRounds n b := by
  induction n generalizing a b with
  | zero => rfl
  | succ n ih => simp only [crcRounds, crcRound_xor, ih]

/-- Rounds that shift out only zeros are a plain shift. -/
theorem crcRounds_of_low_zero (n : Nat) (acc : Half) (h : ∀ i < n, acc.getLsbD i = false) :
    crcRounds n acc = acc >>> n := by
  induction n generalizing acc with
  | zero => simp [crcRounds]
  | succ n ih =>
    have hround : crcRound acc = acc >>> 1 := by
      rw [crcRound, h 0 n.succ_pos, if_neg Bool.false_ne_true]
    have hlow : ∀ i < n, (acc >>> 1).getLsbD i = false := fun i hi => by
      rw [BitVec.getLsbD_ushiftRight]
      exact h _ (by omega)
    rw [crcRounds, hround, ih _ hlow, ← BitVec.shiftRight_add, Nat.add_comm]

theorem crcRounds_eq_iterate (n : Nat) (acc : Half) : crcRounds n acc = crcRound^[n] acc := by
  induction n generalizing acc with
  | zero => rfl
  | succ n ih => rw [crcRounds, ih, Function.iterate_succ_apply]

@[simp] theorem crc16_append_singleton (s : List Byte) (b : Byte) :
    crc16 (s ++ [b]) = crcByte (crc16 s) b := List.foldl_concat ..

/-- Settles O33: the model's rounds are the iterated round. -/
theorem crcIsTheBitSerialAlgorithm : Obligations.CrcIsTheBitSerialAlgorithm :=
  ⟨rfl, fun s b => (crc16_append_singleton s b).trans (crcRounds_eq_iterate 8 _)⟩

/-- Settles O34, by evaluation of the model on each row of V-CRC. -/
theorem crcCheckValuesHold : Obligations.CrcCheckValuesHold := by
  simp [Obligations.CrcCheckValuesHold, crc16, crcByte, crcRounds, crcRound]

/-! ### The table-driven CRC (R111) -/

/-- The table holds eight rounds of each byte. -/
theorem crcTable_lookup (b : Byte) :
    crcTable.getD b.toNat 0#16 = crcRounds 8 (b.setWidth 16) := by
  rw [List.getD_eq_getElem _ _ (by simp [crcTable]; omega)]
  simp [crcTable]

/-- The accumulator with a byte XORed in, cut at bit 8: the part that eight rounds only shift, and
the part that selects the entry of the table. -/
theorem xor_byte_split (acc : Half) (b : Byte) :
    acc ^^^ b.setWidth 16 = (acc >>> 8) <<< 8 ^^^ (lowByte acc ^^^ b).setWidth 16 := by
  ext i hi
  by_cases h : i < 8
  · simp [lowByte, h, BitVec.getLsbD_eq_getElem hi]
  · simp [lowByte, h, show 8 + (i - 8) = i by omega, BitVec.getLsbD_eq_getElem hi]

/-- Eight rounds of a byte are one look-up: the high part is shifted down, the low part is looked
up, and the two results are XORed. -/
theorem crcByte_eq_lookup (acc : Half) (b : Byte) :
    crcByte acc b = (acc >>> 8) ^^^ crcTable.getD (lowByte acc ^^^ b).toNat 0#16 := by
  have hhigh : crcRounds 8 ((acc >>> 8) <<< 8) = acc >>> 8 := by
    rw [crcRounds_of_low_zero _ _ fun i hi => by simp [hi]]
    bv_omega
  rw [crcByte, xor_byte_split, crcRounds_xor, hhigh, crcTable_lookup]

/-- Settles O35: the two folds take the same step at every byte. -/
theorem tableDrivenCrcAgrees : Obligations.TableDrivenCrcAgrees := fun s => by
  simp only [crc16TableDriven, crc16, ← crcByte_eq_lookup]

/-! ### The command CRC16 (R112) -/

theorem State.message_eq_map (s : State) :
    s.message = (List.range s.msgLen.toNat).map (s.byte .msg) := by
  simp [State.message, State.bytes]

/-- Settles O36: CRC16 writes CRC only. -/
theorem crc16ComputesTheMessageCrc : Obligations.Crc16ComputesTheMessageCrc := by
  intro s
  have hexec : exec .crc16 s = .next _ := execCrc16_eq s
  exact ⟨_, hexec, endedOk_of_exec hexec rfl, congrArg crc16 s.message_eq_map,
    bytesKept_of_exec hexec fun _ _ => id⟩

/-! ### The command XOR_BYTES (R114) -/

theorem exec_xorBytes (key : Nat) (s : State) :
    exec (.xorBytes key) s = .next (s.afterXorBytes (byteOperand key)) := execXorBytes_eq key s

@[simp] theorem State.afterXorBytes_msgLen (s : State) (key : Byte) :
    (s.afterXorBytes key).msgLen = s.msgLen := by simp [State.afterXorBytes]

/-- Everything XOR_BYTES does to the bytes. -/
theorem State.afterXorBytes_byte (s : State) (key : Byte) (x : Buffer) (j : Nat) :
    (s.afterXorBytes key).byte x j =
      if x = .msg ∧ j < s.msgLen.toNat then s.byte x j ^^^ key else s.byte x j := by
  rw [State.afterXorBytes, State.status_byte]
  split
  case isTrue h =>
    obtain ⟨rfl, hj⟩ := h
    have hwritten := s.byte_put_at .msg 0 (xorBytes s.message key) j (by simpa using hj)
    simpa [State.message] using hwritten
  case isFalse h =>
    exact s.byte_put_outside .msg 0 _ fun hin => h ⟨hin.1, by simpa using hin.2.2⟩

theorem exec_xorBytes_bytesKeptOutside {key : Nat} {s t : State}
    (hexec : exec (.xorBytes key) s = .next t) : BytesKeptOutside .msg 0 s.msgLen.toNat s t := by
  refine bytesKeptOutside_of_exec hexec ?_
  rintro x j ⟨rfl, hj⟩
  exact ⟨rfl, j.zero_le, by omega⟩

/-- Settles O37: XOR_BYTES's one write to MSG is the Message, ciphered. -/
theorem xorBytesCiphersTheMessage : Obligations.XorBytesCiphersTheMessage := by
  intro s key
  have hexec := exec_xorBytes key s
  exact ⟨_, hexec, endedOk_of_exec hexec (s.put_sticky ..),
    fun i hi => (s.afterXorBytes_byte _ .msg i).trans (if_pos ⟨rfl, hi⟩),
    exec_xorBytes_bytesKeptOutside hexec⟩

/-! ### The laws of the cipher (R115) -/

/-- Two passes are one pass with the XOR of the keys. -/
theorem xorBytes_xorBytes (s : List Byte) (k k' : Byte) :
    xorBytes (xorBytes s k) k' = xorBytes s (k ^^^ k') := by
  simp [xorBytes, Function.comp_def, BitVec.xor_assoc]

@[simp] theorem xorBytes_zero (s : List Byte) : xorBytes s 0#8 = s := by simp [xorBytes]

/-- The same law for the command, byte by byte. -/
theorem State.afterXorBytes_afterXorBytes_byte (s : State) (k k' : Byte) (x : Buffer) (j : Nat) :
    ((s.afterXorBytes k).afterXorBytes k').byte x j = (s.afterXorBytes (k ^^^ k')).byte x j := by
  simp only [State.afterXorBytes_byte, State.afterXorBytes_msgLen]
  split
  · exact BitVec.xor_assoc ..
  · rfl

theorem State.afterXorBytes_zero_byte (s : State) (x : Buffer) (j : Nat) :
    (s.afterXorBytes 0#8).byte x j = s.byte x j := by
  simp [State.afterXorBytes_byte]

/-- Settles O38: two commands leave the bytes that one with the XOR of the keys does, and that XOR
is 0 if the keys are equal. -/
theorem xorLawsHold : Obligations.XorLawsHold := by
  refine ⟨fun s k k' => ⟨xorBytes_xorBytes_same s k, xorBytes_xorBytes s k k', xorBytes_zero s⟩,
    fun s k k' => ?_⟩
  have htwo := s.afterXorBytes_afterXorBytes_byte k k'
  refine ⟨_, _, _, execXorBytes_toNat s k, execXorBytes_toNat _ k', execXorBytes_toNat s (k ^^^ k'),
    fun x j hout => ?_, htwo, ?_, ?_⟩
  · exact (htwo x j).trans
      (exec_xorBytes_bytesKeptOutside (execXorBytes_toNat s (k ^^^ k')) x j hout)
  · rintro rfl x j
    rw [htwo, BitVec.xor_self, State.afterXorBytes_zero_byte]
  · rintro rfl
    exact s.afterXorBytes_zero_byte

end Sys2Proof.Machine

/-! PROOFS. The family of 42_frame.md: what FRM_WRAP, ENCODE and DECODE leave in the registers and
in every byte, DECODE's failure exit, the round trip, and which frame bytes DECODE does not read. -/

namespace Sys2Proof.Machine

open Sys2Proof

/-- A byte of a range whose bytes are known. -/
theorem State.byte_of_bytes_eq {s : State} {b : Buffer} {i n : Nat} {vs : List Byte}
    (h : s.bytes b i n = vs) (k : Nat) (hk : k < vs.length) : s.byte b (i + k) = vs[k] := by
  subst h
  exact (s.bytes_getElem b i n k hk).symm

/-! ### FRM_WRAP (R128) -/

theorem execFrmWrap_ok {s : State} {len : Nat} (h : len ≤ s.cap.toNat + 8) :
    execFrmWrap len s = .next ((s.setFrmLen (longOperand len)).status .ok) :=
  oneTest_passed ((s.overflows_eq_false .frm len).2 h)

/-- Settles O39: FRM_WRAP writes FRM_LEN only, which holds a length within FRM_CAP without loss. -/
theorem frmWrapAdoptsTheBytes : Obligations.FrmWrapAdoptsTheBytes := by
  intro s len hlen
  have hexec : exec (.frmWrap len) s = .next _ := execFrmWrap_ok hlen
  exact ⟨_, hexec, endedOk_of_exec hexec rfl, longOperand_toNat_of_le hlen,
    bytesKept_of_exec hexec fun _ _ => id⟩

/-! ### ENCODE (R129) -/

theorem exec_encodeFrame (s : State) : exec .encodeFrame s = .next s.afterEncode :=
  execEncodeFrame_eq s

@[simp] theorem State.afterEncode_msgLen (s : State) : s.afterEncode.msgLen = s.msgLen := by
  simp [State.afterEncode]

/-- The first three bytes of FRM are the header. -/
theorem State.afterEncode_frm_header (s : State) :
    s.afterEncode.bytes .frm 0 3 = frameHeader s.xor1 s.msgLen :=
  s.afterEncode_frm_part (pre := [])
    (post := s.encodeBody ++ frameTrailer s.encodeCrc s.xor2 s.msgLen)
    (by simp [State.encodeFrame]) rfl rfl

/-- The five bytes after the body are the trailer. -/
theorem State.afterEncode_frm_trailer (s : State) :
    s.afterEncode.bytes .frm (3 + s.msgLen.toNat) 5 = frameTrailer s.encodeCrc s.xor2 s.msgLen :=
  s.afterEncode_frm_part (pre := frameHeader s.xor1 s.msgLen ++ s.encodeBody) (post := [])
    (by simp [State.encodeFrame]) (by simp) rfl

/-- ENCODE leaves in MSG the body it placed in the frame (R137). -/
theorem State.afterEncode_msg_body (s : State) :
    s.afterEncode.bytes .msg 0 s.msgLen.toNat = s.encodeBody := by
  have hfrm := (s.put .msg 0 s.encodeBody).bytes_put_other (b := .frm) (x := .msg) 0 s.encodeFrame
    0 s.msgLen.toNat (.inl (by decide))
  have hmsg := s.bytes_put_same .msg 0 s.encodeBody
  rw [State.encodeBody_length] at hmsg
  exact hfrm.trans hmsg

/-- ENCODE's checksum is over the Message's bytes, each XORed with the second key. -/
theorem State.encodeCrc_eq_map (s : State) : s.encodeCrc =
    crc16 ((List.range s.msgLen.toNat).map fun i => s.byte .msg i ^^^ s.xor2) := by
  rw [State.encodeCrc, State.message_eq_map, xorBytes, List.map_map]
  rfl

/-- A byte of the frame's body is the Message's byte after both passes. -/
theorem State.encodeBody_getElem (s : State) {i : Nat} (hi : i < s.encodeBody.length) :
    s.encodeBody[i] = s.byte .msg i ^^^ s.xor2 ^^^ s.xor1 ^^^ highByte s.encodeCrc := by
  simp [State.encodeBody, State.message, thirdKey, BitVec.xor_assoc]

theorem State.afterEncode_msg_byte (s : State) {i : Nat} (hi : i < s.msgLen.toNat) :
    s.afterEncode.byte .msg i = s.afterEncode.byte .frm (3 + i) := by
  have hi' : i < s.encodeBody.length := by simpa using hi
  rw [State.byte_of_bytes_eq s.afterEncode_frm_body i hi',
    ← State.byte_of_bytes_eq s.afterEncode_msg_body i hi', Nat.zero_add]

/-- Settles O40: FRM holds the header, the body and the trailer, each at its place; MSG holds the
body; the rest is as R40's table lists. -/
theorem encodeBuildsTheFrame : Obligations.EncodeBuildsTheFrame := by
  rintro s n c rfl rfl
  rw [← s.encodeCrc_eq_map]
  have hexec := exec_encodeFrame s
  have hheader := State.byte_of_bytes_eq s.afterEncode_frm_header
  have hbody : ∀ i < s.msgLen.toNat, s.afterEncode.byte .frm (3 + i) =
      s.byte .msg i ^^^ s.xor2 ^^^ s.xor1 ^^^ highByte s.encodeCrc := fun i hi =>
    (State.byte_of_bytes_eq s.afterEncode_frm_body i (by simpa using hi)).trans
      (s.encodeBody_getElem _)
  have htrailer : ∀ k (hk : k < 5), s.afterEncode.byte .frm (3 + k + s.msgLen.toNat) =
      (frameTrailer s.encodeCrc s.xor2 s.msgLen)[k] := fun k hk => by
    rw [Nat.add_right_comm]
    exact State.byte_of_bytes_eq s.afterEncode_frm_trailer k hk
  refine ⟨_, hexec, endedOk_of_exec hexec (by simp), s.afterEncode_frmLen, s.afterEncode_crc,
    hheader 0 (by simp), hheader 1 (by simp), hheader 2 (by simp), hbody,
    htrailer 0 (by simp), htrailer 1 (by simp), htrailer 2 (by simp), htrailer 3 (by simp),
    htrailer 4 (by simp), fun i => s.afterEncode_msg_byte, fun x j hmsg hfrm => ?_⟩
  exact (exec_writesListed _ s _ hexec).bytes x j (not_or.2 ⟨hmsg, hfrm⟩)

/-- Settles O41: ENCODE sets FRM_LEN from MSG_LEN, which it does not write. -/
theorem frameLengthIsEightPlusMessageLength : Obligations.FrameLengthIsEightPlusMessageLength := by
  intro s
  refine ⟨_, exec_encodeFrame s, ?_⟩
  rw [State.afterEncode_frmLen, State.afterEncode_msgLen]

/-! ### DECODE (R132) -/

theorem State.frameBodyLen_toNat (s : State) :
    s.frameBodyLen.toNat = (s.byte .frm 1).toNat * 256 + (s.byte .frm 2).toNat :=
  concatBytes_toNat _ _

theorem State.frameCrc_toNat (s : State) :
    s.frameCrc.toNat = (s.byte .frm (3 + s.frameBodyLen.toNat)).toNat * 256 +
      (s.byte .frm (4 + s.frameBodyLen.toNat)).toNat := by
  rw [State.frameCrc, State.half, concatBytes_toNat, Nat.add_right_comm]

/-- The second key is the key trailer's low byte, unmasked with the length field's low byte. -/
theorem State.frameKey2_eq (s : State) :
    s.frameKey2 = s.byte .frm (6 + s.frameBodyLen.toNat) ^^^ s.byte .frm 2 := by
  rw [State.frameKey2, State.half, lowByte_concatBytes, Nat.add_right_comm]
  exact congrArg _ (lowByte_concatBytes _ _)

/-- A byte of the recovered body; the third key takes the checksum's high byte from the frame. -/
theorem State.frameBody_getElem (s : State) {i : Nat} (hi : i < s.frameBody.length) :
    s.frameBody[i] = s.byte .frm (3 + i) ^^^
      (s.byte .frm 0 ^^^ s.byte .frm (3 + s.frameBodyLen.toNat)) ^^^ s.frameKey2 := by
  simp [State.frameBody, thirdKey, State.frameCrc, State.half]

@[simp] theorem State.afterDecode_msgLen (s : State) : s.afterDecode.msgLen = s.frameBodyLen := by
  simp [State.afterDecode]

@[simp] theorem State.afterDecode_xor1 (s : State) : s.afterDecode.xor1 = s.byte .frm 0 := by
  simp [State.afterDecode]

theorem State.afterDecode_code (s : State) : s.afterDecode.code = 0#4 := rfl

/-- The Message after DECODE, as the bytes of MSG. -/
theorem State.afterDecode_msg_body (s : State) :
    s.afterDecode.bytes .msg 0 s.frameBodyLen.toNat = s.frameBody := by
  have hmessage := s.afterDecode_message
  rwa [State.message, State.afterDecode_msgLen] at hmessage

theorem State.afterDecode_msg_getElem (s : State) {i : Nat} (hi : i < s.frameBody.length) :
    s.afterDecode.byte .msg i = s.frameBody[i] := by
  simpa using State.byte_of_bytes_eq s.afterDecode_msg_body i hi

/-- DECODE's one write to FRM is the recovered body. -/
theorem State.afterDecode_frm_byte (s : State) (j : Nat) :
    s.afterDecode.byte .frm j = (s.put .frm 3 s.frameBody).byte .frm j := by
  simpa [State.afterDecode] using
    (s.put .frm 3 s.frameBody).byte_put_outside .msg 0 s.frameBody (x := .frm) (j := j) (by simp)

/-- DECODE leaves in FRM the body it returns as the Message (R137). -/
theorem State.afterDecode_frm_body (s : State) {i : Nat} (hi : i < s.frameBodyLen.toNat) :
    s.afterDecode.byte .frm (3 + i) = s.afterDecode.byte .msg i := by
  have hi' : i < s.frameBody.length := by simpa using hi
  rw [State.afterDecode_frm_byte, State.byte_put_at _ _ _ _ _ hi', s.afterDecode_msg_getElem hi']

/-- A byte of the Message that DECODE returns, from the frame. -/
theorem State.afterDecode_msg_byte (s : State) {i : Nat} (hi : i < s.frameBodyLen.toNat) :
    s.afterDecode.byte .msg i = s.byte .frm (3 + i) ^^^
      (s.byte .frm 0 ^^^ s.byte .frm (3 + s.frameBodyLen.toNat)) ^^^ s.frameKey2 := by
  rw [s.afterDecode_msg_getElem (by simpa using hi), State.frameBody_getElem]

theorem exec_decodeFrame_ok {s : State} (hlong : 8 ≤ s.frmLen.toNat)
    (hfits : s.frameBodyLen.toNat ≤ s.frmLen.toNat - 8) :
    exec .decodeFrame s = .next s.afterDecode := execDecodeFrame_ok hlong hfits

/-- Settles O42: the outputs are the frame's parts, read from `s` before DECODE writes; the rest is
as R40's table lists. -/
theorem decodeRecoversBodyAndKeys : Obligations.DecodeRecoversBodyAndKeys := by
  rintro s n k1 k2 k3 hlong hn hfits rfl rfl rfl
  obtain rfl : n = s.frameBodyLen.toNat := hn.trans s.frameBodyLen_toNat.symm
  rw [← s.frameKey2_eq, ← s.frameCrc_toNat]
  have hexec := exec_decodeFrame_ok hlong hfits
  refine ⟨_, hexec, endedOk_of_exec hexec (by simp), congrArg BitVec.toNat s.afterDecode_msgLen,
    s.afterDecode_xor1, s.afterDecode_xor2, congrArg BitVec.toNat s.afterDecode_crc,
    fun i => s.afterDecode_msg_byte, fun i => s.afterDecode_frm_body, fun x j hmsg hfrm => ?_⟩
  exact (exec_writesListed _ s _ hexec).bytes x j (not_or.2 ⟨hfrm, hmsg⟩)

/-! ### DECODE's failure exit (R133) -/

/-- A frame shorter than 8 bytes fails DECODE's first test (R159). -/
theorem execDecodeFrame_short {s : State} (h : s.frmLen.toNat < 8) :
    execDecodeFrame s = failDecode .malformedFrame s := if_pos (s.frameShort_iff.2 h)

/-- A body that does not fit the frame fails DECODE's second test (R160). -/
theorem execDecodeFrame_truncated {s : State} (hlong : 8 ≤ s.frmLen.toNat)
    (h : s.frmLen.toNat - 8 < s.frameBodyLen.toNat) :
    execDecodeFrame s = failDecode .truncatedFrame s := by
  have hshort : ¬ s.frameShort = true := by simp [s.frameShort_eq_false.2 hlong]
  exact (if_neg hshort).trans (if_pos ((s.bodyTooLong_iff _).2 h))

/-- Settles O43: each failing test ends in the failure exit with its own code. -/
theorem decodeFailureWritesTheSentinels : Obligations.DecodeFailureWritesTheSentinels := by
  refine fun s => ⟨fun hshort => ?_, fun hlong hbody => ?_⟩
  · exact (execDecodeFrame_short hshort).trans (failDecode_eq _ _)
  · rw [← s.frameBodyLen_toNat] at hbody
    exact (execDecodeFrame_truncated hlong hbody).trans (failDecode_eq _ _)

/-! ### The round trip (R138) -/

/-- Settles O44: DECODE reads back from ENCODE's frame the length, the keys and, both passes undone,
the Message. -/
theorem decodeAfterEncodeRestoresBodyAndKeys :
    Obligations.DecodeAfterEncodeRestoresBodyAndKeys := by
  intro s
  refine ⟨_, _, exec_encodeFrame s, execDecodeFrame_afterEncode s, ?_, fun i hi => ?_, ?_, ?_,
    State.afterDecode_code _⟩
  · rw [State.afterDecode_msgLen, State.afterEncode_frameBodyLen]
  · rw [State.afterDecode_msg_getElem _ (by simpa using hi)]
    simp [State.message]
  · rw [State.afterDecode_xor1, State.afterEncode_firstKey]
  · rw [State.afterDecode_xor2, State.afterEncode_frameKey2]

/-! ### The frame bytes from which the body and the keys are recovered -/

/-- The frame in FRM has in `s'` the bytes it has in `s` up to the checksum's high byte, and the
same low byte of the key trailer. -/
structure SameBodyAndKeyBytes (s s' : State) : Prop where
  upToCrcHigh : ∀ j ≤ 3 + s.frameBodyLen.toNat, s'.byte .frm j = s.byte .frm j
  keyLow : s'.byte .frm (6 + s.frameBodyLen.toNat) = s.byte .frm (6 + s.frameBodyLen.toNat)

namespace SameBodyAndKeyBytes

variable {s s' : State}

theorem frameBodyLen (h : SameBodyAndKeyBytes s s') : s'.frameBodyLen = s.frameBodyLen := by
  rw [State.frameBodyLen, State.frameBodyLen, State.half, State.half, h.upToCrcHigh 1 (by omega),
    h.upToCrcHigh (1 + 1) (by omega)]

theorem frameKey2 (h : SameBodyAndKeyBytes s s') : s'.frameKey2 = s.frameKey2 := by
  rw [State.frameKey2_eq, State.frameKey2_eq, h.frameBodyLen, h.keyLow, h.upToCrcHigh 2 (by omega)]

theorem frameBody (h : SameBodyAndKeyBytes s s') : s'.frameBody = s.frameBody :=
  List.ext_getElem (by simp [h.frameBodyLen]) fun i _ hi => by
    rw [State.frameBody_length] at hi
    rw [State.frameBody_getElem, State.frameBody_getElem, h.frameBodyLen, h.frameKey2,
      h.upToCrcHigh 0 (by omega), h.upToCrcHigh (3 + i) (by omega), h.upToCrcHigh _ le_rfl]

theorem afterDecode_msgLen (h : SameBodyAndKeyBytes s s') :
    s'.afterDecode.msgLen = s.afterDecode.msgLen := by
  rw [State.afterDecode_msgLen, State.afterDecode_msgLen, h.frameBodyLen]

theorem afterDecode_msg_byte (h : SameBodyAndKeyBytes s s') {i : Nat}
    (hi : i < s.frameBodyLen.toNat) : s'.afterDecode.byte .msg i = s.afterDecode.byte .msg i := by
  rw [s.afterDecode_msg_getElem (by simpa using hi),
    s'.afterDecode_msg_getElem (by simpa [h.frameBody] using hi)]
  simp only [h.frameBody]

theorem afterDecode_xor1 (h : SameBodyAndKeyBytes s s') :
    s'.afterDecode.xor1 = s.afterDecode.xor1 := by
  rw [State.afterDecode_xor1, State.afterDecode_xor1, h.upToCrcHigh 0 (by omega)]

theorem afterDecode_xor2 (h : SameBodyAndKeyBytes s s') :
    s'.afterDecode.xor2 = s.afterDecode.xor2 := by
  rw [State.afterDecode_xor2, State.afterDecode_xor2, h.frameKey2]

/-- FRM ends with the same byte wherever it began with the same byte. -/
theorem afterDecode_frm_byte (h : SameBodyAndKeyBytes s s') {j : Nat}
    (hj : s'.byte .frm j = s.byte .frm j) :
    s'.afterDecode.byte .frm j = s.afterDecode.byte .frm j := by
  rw [State.afterDecode_frm_byte, State.afterDecode_frm_byte, h.frameBody]
  exact State.byte_put_congr fun _ => hj

/-- The frames that also agree on the checksum's low byte give the same CRC. -/
theorem afterDecode_crc (h : SameBodyAndKeyBytes s s')
    (hlow : s'.byte .frm (4 + s.frameBodyLen.toNat) = s.byte .frm (4 + s.frameBodyLen.toNat)) :
    s'.afterDecode.crc = s.afterDecode.crc := by
  apply BitVec.eq_of_toNat_eq
  rw [State.afterDecode_crc, State.afterDecode_crc, State.frameCrc_toNat, State.frameCrc_toNat,
    h.frameBodyLen, h.upToCrcHigh _ le_rfl, hlow]

end SameBodyAndKeyBytes

/-- Settles O45: the three bytes lie after the checksum's high byte, and none is the key trailer's
low byte. -/
theorem decodeIgnoresThreeFrameBytes : Obligations.DecodeIgnoresThreeFrameBytes := by
  intro s s' n hlong hlen hn hfits hsame
  obtain rfl : n = s.frameBodyLen.toNat := hn.trans s.frameBodyLen_toNat.symm
  have h : SameBodyAndKeyBytes s s' :=
    ⟨fun j hj => hsame j (by omega) (by omega) (by omega),
      hsame _ (by omega) (by omega) (by omega)⟩
  have hexec' : exec .decodeFrame s' = .next s'.afterDecode :=
    exec_decodeFrame_ok (by rwa [hlen]) (by rwa [hlen, h.frameBodyLen])
  exact ⟨_, _, exec_decodeFrame_ok hlong hfits, hexec', s.afterDecode_code, s'.afterDecode_code,
    h.afterDecode_msgLen, fun _ => h.afterDecode_msg_byte, h.afterDecode_xor1, h.afterDecode_xor2⟩

/-- Settles O46: the body, the keys and the checksum all lie in the first `8 + n` bytes. -/
theorem decodeIgnoresBytesAfterTheFrame : Obligations.DecodeIgnoresBytesAfterTheFrame := by
  intro s s' n hn hlen hlen' hsame
  obtain rfl : n = s.frameBodyLen.toNat := hn.trans s.frameBodyLen_toNat.symm
  have h : SameBodyAndKeyBytes s s' :=
    ⟨fun j hj => hsame j (by omega), hsame _ (by omega)⟩
  have hexec' : exec .decodeFrame s' = .next s'.afterDecode :=
    exec_decodeFrame_ok (by omega) (by rw [h.frameBodyLen]; omega)
  exact ⟨_, _, exec_decodeFrame_ok (by omega) (by omega), hexec', s.afterDecode_code,
    s'.afterDecode_code, h.afterDecode_msgLen, fun _ => h.afterDecode_msg_byte,
    fun j hj => h.afterDecode_frm_byte (hsame j hj), h.afterDecode_xor1, h.afterDecode_xor2,
    h.afterDecode_crc (hsame _ (by omega))⟩

end Sys2Proof.Machine

/-! PROOFS. The family of 60_exceptions.md: the result code each command ends with, what a failed
command leaves as it was, and what clears STICKY. -/

namespace Sys2Proof.Machine

open Sys2Proof

/-! ### How a command ends (R156) -/

/-- The result code of the command `i` issued in state `s`: the first of its tests that fails gives
the code (R158 to R161, R164). -/
def State.resultCode (s : State) (i : Instr) : Code :=
  match i with
  | .msgCreate len | .msgWrap len => if s.overflows .msg len then .lengthOverflow else .ok
  | .frmWrap len => if s.overflows .frm len then .lengthOverflow else .ok
  | .setU8 off _ | .getU8 off => if s.outOfRange8 off then .outOfRange else .ok
  | .setU16 off | .getU16 off => if s.outOfRange16 off then .outOfRange else .ok
  | .setStr off | .getStr off => if s.outOfRangeStr off then .outOfRange else .ok
  | .crc16 | .xorBytes _ | .encodeFrame => .ok
  | .decodeFrame =>
    if s.frameShort then .malformedFrame
    else if s.bodyTooLong s.frameBodyLen then .truncatedFrame
    else .ok

/-- The result code of a CMD write of `w`: the command's, or ILLEGAL_COMMAND (R162). -/
def State.issueCode (s : State) (w : Word) : Code :=
  match decode w with
  | .ok i => s.resultCode i
  | .error _ => .illegalCommand

/-- No test of a command looks at STATUS. -/
theorem State.resultCode_withStatus (s : State) (i : Instr) (code : BitVec 4) (sticky : Bool) :
    State.resultCode { s with code := code, sticky := sticky } i = s.resultCode i := by
  cases i <;> rfl

theorem State.issueCode_withStatus (s : State) (w : Word) (code : BitVec 4) (sticky : Bool) :
    State.issueCode { s with code := code, sticky := sticky } w = s.issueCode w := by
  unfold State.issueCode
  cases decode w with
  | ok i => exact s.resultCode_withStatus i code sticky
  | error e => rfl

/-- The result is that of `status(c)` in a state with the STICKY of `s`; where `c` is not OK and
`silent` holds, in `s` itself. -/
def EndsWith (s : State) (c : Code) (silent : Prop) (r : Result) : Prop :=
  ∃ u, r = .next (u.status c) ∧ u.sticky = s.sticky ∧ (c ≠ .ok → silent → u = s)

namespace EndsWith

variable {s u : State} {c : Code} {silent : Prop}

theorem fail (s : State) (c : Code) : EndsWith s c silent (Machine.fail c s) :=
  ⟨s, rfl, rfl, fun _ _ => rfl⟩

theorem done (hu : u.sticky = s.sticky) : EndsWith s .ok silent (Machine.done u) :=
  ⟨u, rfl, hu, fun hne => absurd rfl hne⟩

theorem failDecode (s : State) (c : Code) (hsilent : ¬ silent) :
    EndsWith s c silent (Machine.failDecode c s) :=
  ⟨_, rfl, rfl, fun _ h => absurd h hsilent⟩

/-- The test that picks the result picks its code. -/
theorem ite {p : Bool} {d : Code} {x y : Result} (hx : EndsWith s c silent x)
    (hy : EndsWith s d silent y) :
    EndsWith s (if p then c else d) silent (if p then x else y) := by
  cases p with
  | true => exact hx
  | false => exact hy

theorem oneTest {p : Bool} (hu : u.sticky = s.sticky) :
    EndsWith s (if p then c else .ok) silent (if p then Machine.fail c s else Machine.done u) :=
  .ite (.fail s c) (.done hu)

end EndsWith

/-- Every command ends by `status` of its result code, and only DECODE's failures write anything
before that (R85, R133). -/
theorem exec_endsWith (i : Instr) (s : State) :
    EndsWith s (s.resultCode i) (i ≠ .decodeFrame) (exec i s) := by
  cases i with
  | msgCreate | setU8 | setU16 | setStr | getStr => exact .oneTest (s.put_sticky ..)
  | msgWrap | frmWrap | getU8 | getU16 => exact .oneTest rfl
  | crc16 => exact .done rfl
  | xorBytes => exact .done (s.put_sticky ..)
  | encodeFrame => exact .done (by simp)
  | decodeFrame =>
    have hexcepted : ¬ Instr.decodeFrame ≠ .decodeFrame := fun hne => hne rfl
    exact .ite (.failDecode s _ hexcepted) (.ite (.failDecode s _ hexcepted) (.done (by simp)))

/-- Every CMD write ends by `status` of its code, an illegal word's too (R156). -/
theorem issue_status (w : Word) (s : State) :
    ∃ u : State, issue w s = .next (u.status (s.issueCode w)) ∧ u.sticky = s.sticky := by
  unfold State.issueCode
  cases hw : decode w with
  | ok i =>
    obtain ⟨u, hexec, hsticky, -⟩ := exec_endsWith i s
    exact ⟨u, (issue_ok hw s).trans hexec, hsticky⟩
  | error e => exact ⟨s, issue_error hw s, rfl⟩

/-- Settles O19: a CMD write ends by `status` of a code that no test takes from STATUS. -/
theorem everyCommandWriteSetsItsCode : Obligations.EveryCommandWriteSetsItsCode := by
  intro w s
  obtain ⟨u, hissue, hsticky⟩ := issue_status w s
  refine ⟨_, hissue, Code.bits_le _, fun hok => ?_, fun hfailed => ?_, fun code sticky => ?_⟩
  · rw [State.status_sticky, Code.bits_eq_zero.1 hok, stickyAfter_ok, hsticky]
  · exact stickyAfter_of_ne_ok _ fun hok => hfailed (Code.bits_eq_zero.2 hok)
  · obtain ⟨v, hissue', -⟩ := issue_status w { s with code := code, sticky := sticky }
    exact ⟨_, hissue', congrArg Code.bits (s.issueCode_withStatus w code sticky)⟩

/-! ### Failed commands (R158, R161, R165) -/

/-- Settles O21: a code that is not OK comes from `status` in the state the command started from. -/
theorem failedCommandChangesOnlyStatus : Obligations.FailedCommandChangesOnlyStatus := by
  intro i s t hexec hfailed hdecode
  obtain ⟨u, hend, -, hsilent⟩ := exec_endsWith i s
  obtain rfl : t = u.status (s.resultCode i) := Host.Outcome.next.inj (hexec.symm.trans hend)
  have hne : s.resultCode i ≠ .ok := fun hok => hfailed (Code.bits_eq_zero.2 hok)
  obtain rfl : u = s := hsilent hne hdecode
  rw [State.status_code, ← stickyAfter_of_ne_ok u.sticky hne]
  rfl

/-- A command that makes one test and fails it only reports. -/
theorem oneTest_failed {p : Bool} {c : Code} {s u : State} (h : p = true) :
    (if p then fail c s else done u) = .next (s.status c) := if_pos h

theorem execFrmWrap_overflow {s : State} {len : Nat} (h : s.cap.toNat + 8 < len) :
    execFrmWrap len s = .next (s.status .lengthOverflow) :=
  oneTest_failed ((s.overflows_iff .frm len).2 h)

/-- Settles O24: each command's test is against the capacity of its own buffer, and a 16-bit length
never exceeds 65535. -/
theorem lengthOverflowOnlyReports : Obligations.LengthOverflowOnlyReports := by
  refine ⟨fun s len hover => ?_, fun s len => execFrmWrap_overflow, fun s len hcap hlen => ?_,
    fun s len hcap hlen => execFrmWrap_overflow ?_⟩
  · have htest : s.overflows .msg len = true := (s.overflows_iff .msg len).2 hover
    exact ⟨oneTest_failed htest, oneTest_failed htest⟩
  · have hfits : len ≤ s.cap.toNat := by rw [hcap]; exact hlen
    exact ⟨⟨_, execMsgCreate_ok hfits, rfl⟩, ⟨_, execMsgWrap_ok hfits, rfl⟩⟩
  · rw [hcap]
    exact hlen

/-- Settles O32: a setter and its getter make the same test, whose sum is of natural numbers. -/
theorem accessorOutOfRangeOnlyReports : Obligations.AccessorOutOfRangeOnlyReports := by
  refine fun s off val => ⟨fun h => ?_, fun h => ?_, fun h => ?_⟩
  · have htest : s.outOfRange8 off = true := (s.outOfRange8_iff off).2 h
    exact ⟨oneTest_failed htest, oneTest_failed htest⟩
  · have htest : s.outOfRange16 off = true := (s.outOfRange16_iff off).2 h
    exact ⟨oneTest_failed htest, oneTest_failed htest⟩
  · have htest : s.outOfRangeStr off = true := (s.outOfRangeStr_iff off).2 h
    exact ⟨oneTest_failed htest, oneTest_failed htest⟩

/-! ### What clears STICKY (R157)

Each layer from the command up to the stimulus keeps STICKY at 1 but for the clearing write it can
carry. -/

/-- The result's next state, if it has one, has STICKY = 1 unless `P` holds. -/
abbrev StickySetUnless (P : Prop) (r : Result) : Prop := Ensures r fun t => t.sticky = false → P

theorem stickySetUnless_of_set {P : Prop} {t : State} (h : t.sticky = true) :
    StickySetUnless P (.next t) :=
  .next fun hclear => absurd (h.symm.trans hclear) (by decide)

theorem State.writeBuffer_sticky (s : State) (b : Buffer) (i : Nat) (v : Byte) :
    (s.writeBuffer b i v).sticky = s.sticky := by
  rcases Nat.lt_or_ge i (s.capacity b) with hbelow | habove
  · rw [State.writeBuffer_below hbelow, State.put_sticky]
  · rw [State.writeBuffer_above habove]

theorem stickyAfter_set (c : Code) : stickyAfter true c = true := by cases c <;> rfl

/-! The layers of the host's side, each in a state whose STICKY is 1. -/
section

variable {s : State} (h : s.sticky = true)

include h

/-- `status` never clears STICKY, so no CMD write does. -/
theorem issue_keepsSticky (P : Prop) (w : Word) : StickySetUnless P (issue w s) := by
  obtain ⟨u, hissue, hsticky⟩ := issue_status w s
  rw [hissue]
  refine stickySetUnless_of_set ?_
  rw [State.status_sticky, hsticky, h, stickyAfter_set]

theorem writeReg_keepsSticky (r : Reg) (v : Word) :
    StickySetUnless (r = .status ∧ v.getLsbD 7 = true) (writeReg r v s) := by
  cases r with
  | cmd => exact issue_keepsSticky h _ v
  | status => exact .next fun hclear => ⟨rfl, by simpa [stickyAfterWrite, h] using hclear⟩
  | data | count | xor1 | xor2 | msgLen | frmLen | crc | cap => exact stickySetUnless_of_set h

theorem hostAction_keepsSticky (a : HostAction) :
    StickySetUnless (∃ v, a = .wr .status v ∧ v.getLsbD 7 = true) (hostAction a s) := by
  cases a with
  | rd | br => exact stickySetUnless_of_set h
  | bw b i v => exact stickySetUnless_of_set ((s.writeBuffer_sticky b i v).trans h)
  | cmd w => exact issue_keepsSticky h _ w
  | wr r v =>
    intro t hexec hclear
    obtain ⟨rfl, hbit⟩ := writeReg_keepsSticky h r v t hexec hclear
    exact ⟨v, rfl, hbit⟩

end

/-- An access goes to a register only as a 32-bit one at the register's offset (R54). -/
theorem portTarget_register_inv {addr : Nat} {width : Width} {r : Reg}
    (h : portTarget addr width = .register r) : width = .w32 ∧ addr = r.offset := by
  refine registerAt_inv ?_
  unfold portTarget at h
  split at h
  case h_1 r' hreg => rw [hreg, PortTarget.register.inj h]
  case h_2 => split at h <;> cases h

theorem portAccess_keepsSticky {s : State} (h : s.sticky = true) (p : PortAccess) :
    StickySetUnless
      (∃ addr v, p = .write addr .w32 v ∧ addr.toNat = 0x04 ∧ v.getLsbD 7 = true)
      (portAccess p s) := by
  cases p with
  | read addr width =>
    cases ht : portTarget addr.toNat width <;> simp only [portAccess, ht]
    case register | byteOf | nothing => exact stickySetUnless_of_set h
    case wideInWindow => exact .refused _
  | write addr width v =>
    cases ht : portTarget addr.toNat width <;> simp only [portAccess, ht]
    case register r =>
      intro t hexec hclear
      obtain ⟨rfl, hbit⟩ := writeReg_keepsSticky h r v t hexec hclear
      obtain ⟨rfl, haddr⟩ := portTarget_register_inv ht
      exact ⟨addr, v, rfl, haddr, hbit⟩
    case byteOf b i => exact stickySetUnless_of_set ((s.writeBuffer_sticky b i _).trans h)
    case nothing => exact stickySetUnless_of_set h
    case wideInWindow => exact .refused _

/-- Settles O20: an idle step keeps STICKY, and a stimulus clears it only as its layer says. -/
theorem stickyClearedOnlyByHostOrReset : Obligations.StickyClearedOnlyByHostOrReset := by
  intro s t hstep hset hclear
  cases hp : s.pending with
  | nil => exact (stickySetUnless_of_set hset) t ((step_nil hp).symm.trans hstep) hclear
  | cons a rest =>
    have hstim : stimulate a { s with pending := rest } = .next t :=
      (step_cons hp).symm.trans hstep
    cases a with
    | host a =>
      obtain ⟨v, rfl, hbit⟩ := hostAction_keepsSticky (s := { s with pending := rest }) hset a t
        hstim hclear
      exact .inl ⟨v, rest, rfl, hbit⟩
    | port p =>
      obtain ⟨addr, v, rfl, haddr, hbit⟩ := portAccess_keepsSticky
        (s := { s with pending := rest }) hset p t hstim hclear
      exact .inr (.inl ⟨addr, v, rest, rfl, haddr, hbit⟩)
    | resetPulse => exact .inr (.inr ⟨rest, rfl⟩)

end Sys2Proof.Machine

/-! PROOFS. The family of 70_reset_and_hazards.md: what the state after reset and a reset pulse hold,
and what a second DECODE of the same frame returns. -/

namespace Sys2Proof.Machine

open Sys2Proof

/-! ### The state after reset (R181) -/

theorem State.resetWith_readReg (cap : Half) {r : Reg} (h : r ≠ .cap) :
    (State.resetWith cap).readReg r = 0#32 := by
  cases r with
  | cap => exact absurd rfl h
  | status => exact (by decide : (statusByte false 0#4).setWidth 32 = 0#32)
  | cmd | msgLen | frmLen | data | count | xor1 | xor2 | crc => rfl

theorem State.resetWith_readReg_cap (cap : Half) :
    (State.resetWith cap).readReg .cap = cap.setWidth 32 := rfl

@[simp] theorem State.resetWith_buffer (cap : Half) (b : Buffer) :
    (State.resetWith cap).buffer b = [] := by cases b <;> rfl

/-- Settles O9: the reset values, register by register. -/
theorem resetLeavesRegistersZero : Obligations.ResetLeavesRegistersZero :=
  ⟨⟨Config.refMsgCap, rfl⟩, fun cap =>
    ⟨fun _ => State.resetWith_readReg cap, State.resetWith_readReg_cap cap, rfl, rfl⟩⟩

/-- Settles O52: the reference configuration's reset state, whose MSG_CAP is 65535 (R7). -/
theorem resetStateIsTheReferenceConfiguration :
    Obligations.ResetStateIsTheReferenceConfiguration :=
  ⟨fun _ => State.resetWith_readReg Config.refMsgCap, State.resetWith_readReg_cap Config.refMsgCap⟩

/-- After reset the lengths are 0 and no byte is written, so only the capacity has to be legal. -/
theorem State.resetWith_inv {cap : Half} (h : 1 ≤ cap.toNat) : (State.resetWith cap).Inv where
  capLegal := ⟨h, Nat.le_of_lt_succ cap.isLt⟩
  msgLenLegal := Nat.zero_le _
  frmLenLegal := Nat.zero_le _
  codeLegal := Nat.zero_le _
  canonical b := by rw [State.resetWith_buffer]; exact Memory.wf_nil
  inside b := by rw [State.resetWith_buffer]; exact List.forall_mem_nil _

/-- Settles O11: the reference value of MSG_CAP is one of the legal ones. -/
theorem resetMeetsTheInvariant : Obligations.ResetMeetsTheInvariant :=
  ⟨State.resetWith_inv (cap := Config.refMsgCap) (by decide), fun _ => State.resetWith_inv⟩

/-! ### A pulse of the reset input (R180, R182) -/

/-- A pulse leaves the registers as the reset of a block with the same MSG_CAP does. -/
theorem State.pulseReset_readReg (s : State) (r : Reg) :
    s.pulseReset.readReg r = (State.resetWith s.cap).readReg r := rfl

@[simp] theorem State.pulseReset_buffer (s : State) (b : Buffer) : s.pulseReset.buffer b = [] := by
  cases b <;> rfl

/-- A byte of a buffer in which nothing is written is the free draw of the epoch. -/
theorem State.byte_of_buffer_nil {s : State} {b : Buffer} (h : s.buffer b = []) (i : Nat) :
    s.byte b i = Config.freeByte s.epoch b i := by
  rw [State.byte, h, Memory.get?_nil, Option.getD_none, State.unwritten]

/-- Settles O10: the step is the pulse, on the state whose list has moved on by one. -/
theorem resetPulseResetsRegistersAndBuffers : Obligations.ResetPulseResetsRegistersAndBuffers := by
  intro s rest hs
  refine ⟨State.pulseReset { s with pending := rest }, step_cons hs, fun r hr => ?_, ?_,
    State.pulseReset_buffer _, State.pulseReset_epoch _,
    fun b => State.byte_of_buffer_nil (State.pulseReset_buffer _ b),
    State.pulseReset_pending _, State.pulseReset_returned _⟩
  · rw [State.pulseReset_readReg, State.resetWith_readReg _ hr]
  · rw [State.pulseReset_readReg, State.resetWith_readReg_cap]
    rfl

/-! ### A second DECODE of the same frame (R185)

DECODE deciphers the body in place and leaves the rest of the frame, so the second DECODE reads the
same length, keys and checksum, and takes both passes over a body that is already the Message. -/

@[simp] theorem State.afterDecode_frmLen (s : State) : s.afterDecode.frmLen = s.frmLen := by
  simp [State.afterDecode]

/-- DECODE keeps every byte of the frame but the body's. -/
theorem State.afterDecode_frm_outside (s : State) {j : Nat}
    (h : j < 3 ∨ 3 + s.frameBodyLen.toNat ≤ j) : s.afterDecode.byte .frm j = s.byte .frm j := by
  rw [State.afterDecode_frm_byte, State.byte_put_outside]
  rw [State.frameBody_length]
  omega

/-- A 16-bit value of the frame that lies outside the body is kept. -/
theorem State.afterDecode_frm_half (s : State) {j : Nat}
    (h : j + 1 < 3 ∨ 3 + s.frameBodyLen.toNat ≤ j) : s.afterDecode.half .frm j = s.half .frm j := by
  rw [State.half, State.half, s.afterDecode_frm_outside (by omega),
    s.afterDecode_frm_outside (by omega)]

@[simp] theorem State.afterDecode_frameBodyLen (s : State) :
    s.afterDecode.frameBodyLen = s.frameBodyLen := s.afterDecode_frm_half (.inl (by decide))

@[simp] theorem State.afterDecode_frameCrc (s : State) : s.afterDecode.frameCrc = s.frameCrc := by
  rw [State.frameCrc, State.afterDecode_frameBodyLen, s.afterDecode_frm_half (.inr le_rfl),
    State.frameCrc]

@[simp] theorem State.afterDecode_frameKey2 (s : State) :
    s.afterDecode.frameKey2 = s.frameKey2 := by
  rw [State.frameKey2, State.afterDecode_frameBodyLen, s.afterDecode_frm_half (.inr (by omega)),
    State.frameKey2]

theorem State.afterDecode_firstKey (s : State) : s.afterDecode.byte .frm 0 = s.byte .frm 0 :=
  s.afterDecode_frm_outside (.inl (by decide))

theorem State.highByte_frameCrc (s : State) :
    highByte s.frameCrc = s.byte .frm (3 + s.frameBodyLen.toNat) := highByte_concatBytes _ _

/-- A byte of the Message that DECODE returns, by the keys it recovers: the byte of the body after
the third key's pass and the second's. -/
theorem State.afterDecode_msg_byte_keys (s : State) {i : Nat} (hi : i < s.frameBodyLen.toNat) :
    s.afterDecode.byte .msg i =
      s.byte .frm (3 + i) ^^^ (s.frameKey2 ^^^ thirdKey (s.byte .frm 0) s.frameCrc) := by
  rw [s.afterDecode_msg_byte hi, thirdKey, State.highByte_frameCrc, BitVec.xor_assoc]
  exact congrArg _ (BitVec.xor_comm _ _)

/-- The second DECODE returns the first one's Message, XORed with the second key and the third. -/
theorem State.afterDecode_afterDecode_msg_byte (s : State) {i : Nat}
    (hi : i < s.frameBodyLen.toNat) : s.afterDecode.afterDecode.byte .msg i =
      s.afterDecode.byte .msg i ^^^ (s.frameKey2 ^^^ thirdKey (s.byte .frm 0) s.frameCrc) := by
  rw [s.afterDecode.afterDecode_msg_byte_keys (by rwa [State.afterDecode_frameBodyLen]),
    s.afterDecode_frm_body hi, State.afterDecode_frameKey2, State.afterDecode_firstKey,
    State.afterDecode_frameCrc]

/-- The second DECODE passes the same two tests as the first. -/
theorem exec_decodeFrame_afterDecode {s : State} (hlong : 8 ≤ s.frmLen.toNat)
    (hfits : s.frameBodyLen.toNat ≤ s.frmLen.toNat - 8) :
    exec .decodeFrame s.afterDecode = .next s.afterDecode.afterDecode :=
  exec_decodeFrame_ok (by rwa [State.afterDecode_frmLen])
    (by rwa [State.afterDecode_frameBodyLen, State.afterDecode_frmLen])

/-- Settles O47: the second DECODE takes both passes over the Message, with the keys that the first
one recovered. -/
theorem secondDecodeAppliesBothPassesAgain : Obligations.SecondDecodeAppliesBothPassesAgain := by
  intro s n hlong hn hfits
  obtain rfl : n = s.frameBodyLen.toNat := hn.trans s.frameBodyLen_toNat.symm
  refine ⟨_, _, exec_decodeFrame_ok hlong hfits, exec_decodeFrame_afterDecode hlong hfits,
    s.afterDecode_code, s.afterDecode.afterDecode_code, congrArg BitVec.toNat s.afterDecode_msgLen,
    ?_, ?_, ?_, ?_, fun i hi => ?_⟩
  · rw [State.afterDecode_msgLen, State.afterDecode_frameBodyLen, State.afterDecode_msgLen]
  · rw [State.afterDecode_xor1, State.afterDecode_firstKey, State.afterDecode_xor1]
  · rw [State.afterDecode_xor2, State.afterDecode_frameKey2, State.afterDecode_xor2]
  · rw [State.afterDecode_crc, State.afterDecode_frameCrc, State.afterDecode_crc]
  · rw [s.afterDecode_afterDecode_msg_byte hi, State.afterDecode_xor2, State.afterDecode_xor1,
      State.afterDecode_crc]
    rfl

end Sys2Proof.Machine
